-- ==== Sys2Proof/Word.lean ====
section
/-! DEFINITION. The word types of the ZACwire decoder and their plainest arithmetic (00_scope.md R4, R7). -/

namespace Sys2Proof

/-- The 8-bit value of an accumulator or of a buffer cell (R4). -/
abbrev Byte := BitVec 8

/-- The bit cursor: `CW` = 4 bits, unsigned (R4, R13, R75). -/
abbrev Cursor := BitVec 4

/-- `trunc_N(v)` of R7, at `N` = `TW`: `v mod 2^TW`. `TW` is an open parameter (R4), so a value of `TW` bits (`strobe`, `tcnt`,
`tper`, `cnt`), which is unsigned (R7), is held as the number it stands for; every write of one goes through this
truncation. DESIGN CHOICE (safe): log 2. -/
def truncTW (tw v : Nat) : Nat := v % 2 ^ tw

end Sys2Proof
end

