-- ==== Sys2Proof/Config.lean ====
section
/-! DEFINITION. What an implementation fixes, and the free values: the reference `TW` of the opcode table (00_scope.md R4)
and the open dispatch order (60_exceptions.md R95). -/

namespace Sys2Proof

/-- The reference value of the parameter `TW`: the width for which `spec/opcode_table.json` and the 13-bit dispatch word are
written (R4, R51, D1). DESIGN CHOICE (unsafe if a claim rests on 8): log 1. -/
def Config.refTW : Nat := 8

/-- `DISPATCH_ORDER` (R4, R95): when both interrupts are pending, whether the line edge is the one dispatched, on the n-th
time such a choice arises. It has no body that a proof can see: the spec leaves the order open and both are admitted
(D14). DESIGN CHOICE of the form (safe): log 6. -/
opaque Config.edgeFirst : Nat → Bool

end Sys2Proof
end

