-- ==== Sys2Proof/Syntax.lean ====
section
/-! DEFINITION. The syntax: FrameState, events, the twelve operations of `spec/opcode_table.json`, the commands, and the
names under which a decoder refuses a word. -/

namespace Sys2Proof

/-- FrameState (10_state.md R11): exactly one of five values is active. -/
inductive FrameState where
  /-- AwaitingStartFalling. -/
  | asf
  /-- AwaitingStartRising. -/
  | asr
  /-- AcquiringStrobe. -/
  | acq
  /-- ReadingHighByte. -/
  | rhb
  /-- ReadingLowByte. -/
  | rlb
deriving DecidableEq, Repr

/-- The events the engine consumes (30_encoding.md R48 to R50). -/
inductive Event where
  /-- A line-edge interrupt is dispatched; `cnt` is the timer count as read during the handler (R48). -/
  | edge (cnt : Nat)
  /-- A compare-match interrupt is dispatched; `lvl` is the line level as sampled, true = high (R49, D19). -/
  | samp (lvl : Bool)
  /-- The consumer reads `OUT[0]` (R50). -/
  | rdhi
  /-- The consumer reads `OUT[1]` (R50). -/
  | rdlo
deriving DecidableEq, Repr

/-- The operations: one constructor per row of `spec/opcode_table.json`, in the table's order (30_encoding.md R52). An
operand is a field of the dispatch word; a field that the operation ignores is kept, so that no bit of a word is lost
(log 17). -/
inductive Instr where
  /-- EDGE.ASF (R61). -/
  | edgeAsf (cnt : Nat)
  /-- EDGE.ASR (R62). -/
  | edgeAsr (cnt : Nat)
  /-- EDGE.ACQ (R63). -/
  | edgeAcq (cnt : Nat)
  /-- EDGE.RHB (R64). -/
  | edgeRhb (cnt : Nat)
  /-- EDGE.RLB (R65). -/
  | edgeRlb (cnt : Nat)
  /-- SAMP.ASF (R73). -/
  | sampAsf (lvl : Bool)
  /-- SAMP.ASR (R73). -/
  | sampAsr (lvl : Bool)
  /-- SAMP.ACQ (R73). -/
  | sampAcq (lvl : Bool)
  /-- SAMP.RHB (R71). -/
  | sampRhb (lvl : Bool)
  /-- SAMP.RLB (R72). -/
  | sampRlb (lvl : Bool)
  /-- RDHI (R80); the `sss` field of format R. -/
  | rdhi (fs : FrameState)
  /-- RDLO (R81); the `sss` field of format R. -/
  | rdlo (fs : FrameState)
deriving DecidableEq, Repr

/-- The commands by which the engine and bring-up drive the two collaborators (40_line_edge.md R60; R57: not encoded). -/
inductive Command where
  | selectFallingEdge
  | selectRisingEdge
  | enableLineInterrupt
  | disableLineInterrupt
  | startFreeRunning
  | stop
  | startPeriodic (period : Nat)
  | stopPeriodic
  | clearCount
deriving DecidableEq, Repr

/-- Why a decoder refuses a raw word (30_encoding.md R53; the hardware itself has no illegal event, R53 (e)). -/
inductive DecodeRefusal where
  /-- R53 (a): the `fs` field holds 5, 6 or 7. -/
  | reservedFrameState
  /-- R53 (b): the `kind` field holds 3. -/
  | reservedEventKind
  /-- R53 (c): a SAMP or READ word with `arg[TW-1:1]` not 0. -/
  | reservedArgument
  /-- The number does not fit the word: a bit above the word's top field is set (R51: the word has `TW + 5` bits, the event
  word `TW + 2`). DESIGN CHOICE (safe): log 16. -/
  | overwideWord
deriving DecidableEq, Repr

/-- The value of `fs` that selects an operation; for a READ operation the ignored field (R51, R52). -/
def Instr.frame : Instr → FrameState
  | .edgeAsf _ => .asf
  | .edgeAsr _ => .asr
  | .edgeAcq _ => .acq
  | .edgeRhb _ => .rhb
  | .edgeRlb _ => .rlb
  | .sampAsf _ => .asf
  | .sampAsr _ => .asr
  | .sampAcq _ => .acq
  | .sampRhb _ => .rhb
  | .sampRlb _ => .rlb
  | .rdhi fs => fs
  | .rdlo fs => fs

/-- The event that an operation answers (R52). -/
def Instr.event : Instr → Event
  | .edgeAsf n => .edge n
  | .edgeAsr n => .edge n
  | .edgeAcq n => .edge n
  | .edgeRhb n => .edge n
  | .edgeRlb n => .edge n
  | .sampAsf l => .samp l
  | .sampAsr l => .samp l
  | .sampAcq l => .samp l
  | .sampRhb l => .samp l
  | .sampRlb l => .samp l
  | .rdhi _ => .rdhi
  | .rdlo _ => .rdlo

end Sys2Proof
end

