-- ==== Sys2Proof/WellFormed.lean ====
section
/-! DEFINITION. Which events and operations the formats E, S and R can spell at a width `TW` (30_encoding.md R48 to R51). -/

namespace Sys2Proof

/-- `TW >= 1` (00_scope.md R4), and the argument fits its `TW` bits (R48, R51). -/
def Event.wf (tw : Nat) : Event → Bool
  | .edge n => decide (1 ≤ tw) && decide (n < 2 ^ tw)
  | .samp _ => decide (1 ≤ tw)
  | .rdhi => decide (1 ≤ tw)
  | .rdlo => decide (1 ≤ tw)

/-- An operation is well formed when the event it answers is; its `fs` field is one of the five codes by its type. -/
def Instr.wf (tw : Nat) (i : Instr) : Bool := i.event.wf tw

end Sys2Proof
end

