-- ==== Sys2Proof/Decode.lean ====
section
/-! DEFINITION. The decoder of dispatch words, total on every number, refusing by name, and the encoder
(30_encoding.md R47, R51 to R55). -/

namespace Sys2Proof

/-- FrameState of a 3-bit code; codes 5, 6 and 7 are reserved (R47). -/
def frameOfCode : Nat → Option FrameState
  | 0 => some .asf
  | 1 => some .asr
  | 2 => some .acq
  | 3 => some .rhb
  | 4 => some .rlb
  | _ => none

/-- The 3-bit code of a FrameState (R47). -/
def frameCode : FrameState → Nat
  | .asf => 0
  | .asr => 1
  | .acq => 2
  | .rhb => 3
  | .rlb => 4

/-- The operation map (R52): which operation an event performs in a FrameState. -/
def operationOf : FrameState → Event → Instr
  | .asf, .edge n => .edgeAsf n
  | .asr, .edge n => .edgeAsr n
  | .acq, .edge n => .edgeAcq n
  | .rhb, .edge n => .edgeRhb n
  | .rlb, .edge n => .edgeRlb n
  | .asf, .samp l => .sampAsf l
  | .asr, .samp l => .sampAsr l
  | .acq, .samp l => .sampAcq l
  | .rhb, .samp l => .sampRhb l
  | .rlb, .samp l => .sampRlb l
  | fs, .rdhi => .rdhi fs
  | fs, .rdlo => .rdlo fs

/-- The one-bit argument of a SAMP or READ word: `arg[0]`, the bits above it 0 (R51, R53 (c)). -/
def decodeBit : Nat → Except DecodeRefusal Bool
  | 0 => .ok false
  | 1 => .ok true
  | _ => .error .reservedArgument

/-- The READ event that `sel` names (R51: 0 = RDHI, 1 = RDLO). -/
def readEvent (sel : Bool) : Event := if sel then .rdlo else .rdhi

/-- The event of a `kind` and an `arg` field (R51). -/
def decodeEvent (kind arg : Nat) : Except DecodeRefusal Event :=
  match kind with
  | 0 => .ok (.edge arg)
  | 1 => (decodeBit arg).map Event.samp
  | 2 => (decodeBit arg).map readEvent
  | _ => .error .reservedEventKind

/-- `DW[TW-1:0]` (R51). -/
def argField (tw w : Nat) : Nat := w % 2 ^ tw

/-- `DW[TW+1:TW]` (R51). -/
def kindField (tw w : Nat) : Nat := w / 2 ^ tw % 4

/-- `DW[TW+4:TW+2]`, together with whatever stands above it (R51). -/
def frameField (tw w : Nat) : Nat := w / 2 ^ tw / 4

/-- The decoder: the operation of a dispatch word of `TW + 5` bits (R51, R52), or the name under which R53 refuses it. A word
reserved on two grounds, a reserved `fs` code beside a reserved kind or argument, is refused as R53 (a) names it: R53 gives no
order. DESIGN CHOICE (safe): log 29. -/
def decode (tw w : Nat) : Except DecodeRefusal Instr :=
  if 8 ≤ frameField tw w then .error .overwideWord
  else
    match frameOfCode (frameField tw w) with
    | none => .error .reservedFrameState
    | some fs => (decodeEvent (kindField tw w) (argField tw w)).map (operationOf fs)

/-- The `kind` field of an event (R51). -/
def eventKind : Event → Nat
  | .edge _ => 0
  | .samp _ => 1
  | .rdhi => 2
  | .rdlo => 2

/-- The `arg` field of an event (R51). -/
def eventArg : Event → Nat
  | .edge n => n
  | .samp l => l.toNat
  | .rdhi => 0
  | .rdlo => 1

/-- The event word `EW = kind ++ arg`, `TW + 2` bits (R51, R55). -/
def eventWord (tw : Nat) (e : Event) : Nat := eventKind e * 2 ^ tw + eventArg e

/-- The dispatch word `DW = fscode ++ EW` (R51). -/
def dispatchWord (tw : Nat) (fs : FrameState) (ew : Nat) : Nat := frameCode fs * (4 * 2 ^ tw) + ew

/-- The encoder: the dispatch word of an operation (R51, R52). -/
def encode (tw : Nat) (i : Instr) : Nat := dispatchWord tw i.frame (eventWord tw i.event)

/-- The operation that the decoder reads from a word numbered as `spec/opcode_table.json` numbers it: a dispatch word at
the table's `TW` = 8. The hardware stores no dispatch word and gives it no byte order (R44), so the word's bits go to the
decoder as they are. DESIGN CHOICE (safe): log 15. -/
def decodeTableWord (nbits w : Nat) : Option Instr := (decode Config.refTW (w % 2 ^ nbits)).toOption

end Sys2Proof
end

