-- ==== Sys2Proof/Machine/State.lean ====
section
/-! DEFINITION. The state of the machine, all plain data: the engine (10_state.md R10), the collaborators (R18, R19), the
ports (R21), the inputs still to come, and the parameter `TW` (00_scope.md R4); the faults and refusals; the reset state
(R22, R23). -/

namespace Sys2Proof.Machine

/-- The Decoded Output Buffer (20_memory.md R30) as (index, byte) pairs in one canonical form: `Memory.wf`. -/
abbrev Memory := List Host.Cell

/-- The engine's own state, Layer 1: "and nothing else" (10_state.md R10). -/
structure EngineState where
  /-- FrameState (R11). -/
  fs : FrameState
  /-- Strobe, `TW` bits (R12). -/
  strobe : Nat
  /-- BitCursor, 4 bits (R13). -/
  cur : Cursor
  /-- The highByte accumulator (R14). -/
  hi : Byte
  /-- The lowByte accumulator (R14). -/
  lo : Byte
  /-- The Decoded Output Buffer `OUT[0]`, `OUT[1]` (R15). -/
  out : Memory
deriving DecidableEq, Repr

/-- `edgesel`: the transition the Edge Controller reports (R18). -/
inductive EdgeSel where
  | falling
  | rising
deriving DecidableEq, Repr

/-- `tmode`: the mode of the Sample Timer; code 3 is not represented (R18, R99). -/
inductive TimerMode where
  | stopped
  | freeRunning
  | periodic
deriving DecidableEq, Repr

/-- The collaborator state, Layer 2 (R18, R19, R99, R104). -/
structure EnvState where
  /-- The selected transition (R104). -/
  edgesel : EdgeSel
  /-- The line interrupt enable (R104). -/
  lirqEn : Bool
  /-- The mode of the Sample Timer (R99). -/
  tmode : TimerMode
  /-- The compare period, `TW` bits (R99). -/
  tper : Nat
  /-- The count, `TW` bits (R99). -/
  tcnt : Nat
  /-- A line-edge interrupt is latched (R19, R92). -/
  edgePend : Bool
  /-- A compare-match interrupt is latched (R19, R93). -/
  cmPend : Bool
  /-- The line level at the previous tick, true = high (R19, R104). -/
  linePrev : Bool
deriving DecidableEq, Repr

/-- One input from outside the machine (10_state.md R21). -/
inductive Input where
  /-- An event of a Layer 1 trace, as an event word of `TW + 2` bits (30_encoding.md R51, R55). -/
  | event (ew : Nat)
  /-- One tick of the reference environment with the line at this level (60_exceptions.md R107). -/
  | tick (line : Bool)
  /-- The reset input `rst` (70_reset_and_hazards.md R120). -/
  | rst
deriving DecidableEq, Repr

/-- The machine's state. -/
structure State where
  /-- The parameter `TW` (R4): never written by a step. DESIGN CHOICE (unsafe at the reset value only): log 1. -/
  tw : Nat
  /-- Layer 1 (R10). -/
  engine : EngineState
  /-- Layer 2 (R18, R19). -/
  env : EnvState
  /-- The commands issued by the most recent operation, in order (R6, R21, R57). -/
  cmds : List Command
  /-- The byte returned by the most recent operation, if it returned one (R6, R21). -/
  rdData : Option Byte
  /-- Every byte returned so far, in order: the observation of a trace (R135). -/
  results : List Byte
  /-- The inputs still to be consumed, left to right (R5). The model's own field: log 7. -/
  inputs : List Input
  /-- The tick number `t` of R107. The model's own field: log 27. -/
  time : Nat
  /-- How many choices of the dispatch order have been drawn (R95). The model's own field: log 6. -/
  draws : Nat
deriving DecidableEq, Repr

/-- Why the hardware stops with a fault: it never does ("The hardware raises no synchronous exception", 60_exceptions.md
R90), so the type has no constructor. Log 28. -/
inductive Fault where
deriving DecidableEq, Repr

/-- Why the MODEL gives an input no meaning; none of these is hardware behaviour (R90, R53 (e)). -/
inductive Refusal where
  /-- Raised by an arm of `exec` whose operation has no meaning yet (none is left). Safe. -/
  | notModelled (mnemonic : String)
  /-- Raised by a step whose next input is an event word that R53 refuses. Safe: the hardware cannot produce it (D11). -/
  | undecodable (why : DecodeRefusal)
  /-- Raised in Layer 2 where the engine issues `startPeriodic(0)`, and by a tick of a timer in periodic mode with
  period 0 (R103 (b), R130). Safe: the spec gives that run no meaning (D18). Log 10. -/
  | zeroStrobe
deriving DecidableEq, Repr

/-- The engine after reset (10_state.md R22): `fs` is the source's value; the others are the spec's decision D6.
UNVERIFIED (unsafe): log 3. -/
def EngineState.reset : EngineState :=
  { fs := .asf, strobe := 0, cur := 9, hi := 0, lo := 0, out := [] }

/-- The collaborators after reset and bring-up (10_state.md R23, decision D7). UNVERIFIED (unsafe): log 4. -/
def EnvState.reset : EnvState :=
  { edgesel := .falling, lirqEn := true, tmode := .stopped, tper := 0, tcnt := 0, edgePend := false, cmPend := false,
    linePrev := true }

/-- The machine right after reset (70_reset_and_hazards.md R120), with the reference `TW` (log 1) and no input placed
(log 7). -/
def State.reset : State :=
  { tw := Config.refTW, engine := EngineState.reset, env := EnvState.reset, cmds := [], rdData := none, results := [],
    inputs := [], time := 0, draws := 0 }

end Sys2Proof.Machine
end

