-- ==== Sys2Proof/Machine/Collaborators.lean ====
section
/-! DEFINITION. The reference model of the Sample Timer and the Edge Controller (60_exceptions.md sections 4 and 5): the
effect of every command, the timer tick, edge detection, and what bring-up issues. UNVERIFIED (unsafe): log 21, log 22. -/

namespace Sys2Proof.Machine

/-- The effect of a command on the collaborators, at once (R101, R106; the table of R60). -/
def applyCommand (tw : Nat) (c : Command) (e : EnvState) : EnvState :=
  match c with
  | .selectFallingEdge => { e with edgesel := .falling }
  | .selectRisingEdge => { e with edgesel := .rising }
  | .enableLineInterrupt => { e with lirqEn := true }
  | .disableLineInterrupt => { e with lirqEn := false }
  | .startFreeRunning => { e with tmode := .freeRunning }
  | .stop => { e with tmode := .stopped }
  | .startPeriodic p => { e with tper := truncTW tw p, tmode := .periodic }
  | .stopPeriodic => { e with tmode := .stopped }
  | .clearCount => { e with tcnt := 0 }

/-- Commands take effect in the order issued (R101, R107). -/
def applyCommands (tw : Nat) : List Command → EnvState → EnvState
  | [], e => e
  | c :: cs, e => applyCommands tw cs (applyCommand tw c e)

/-- The count of the next tick: it wraps from `2^TW - 1` to 0, silently (R100, R103 (a)). -/
def nextCount (tw : Nat) (e : EnvState) : Nat := truncTW tw (e.tcnt + 1)

/-- `timer_tick` (R100). -/
def timerTick (tw : Nat) (e : EnvState) : EnvState :=
  match e.tmode with
  | .stopped => e
  | .freeRunning => { e with tcnt := nextCount tw e }
  | .periodic =>
    if nextCount tw e = e.tper then { e with cmPend := true, tcnt := 0 } else { e with tcnt := nextCount tw e }

/-- The line made the transition that `edgesel` selects (R92, R105). -/
def selectedEdge (e : EnvState) (line : Bool) : Bool :=
  match e.edgesel with
  | .falling => e.linePrev && !line
  | .rising => !e.linePrev && line

/-- `edge_detect(line)` (R105). -/
def edgeDetect (line : Bool) (e : EnvState) : EnvState :=
  { e with edgePend := e.edgePend || (e.lirqEn && selectedEdge e line), linePrev := line }

/-- One tick of the collaborators: the timer first, then the edge detector (R107). -/
def collaboratorTick (tw : Nat) (line : Bool) (e : EnvState) : EnvState := edgeDetect line (timerTick tw e)

/-- The commands of bring-up that reach the collaborators, in R122's order: timer stopped with count 0, falling edge
selected, line interrupt enabled. R122 names only the last command; that the first three are the means of its points (3) and (4)
is DEDUCED (unsafe): log 30. -/
def bringUpCommands : List Command := [.stop, .clearCount, .selectFallingEdge, .enableLineInterrupt]

end Sys2Proof.Machine
end

