-- ==== Sys2Proof/Machine/Flags.lean ====
section
/-! DEFINITION. The engine has no flags and no condition codes (10_state.md R17): no operation writes one. What stands here
are the conditions that the Sample-Timer Handler tests on the NEW cursor (41_sample_timer.md R71, R72; 90_conflicts.md C2). -/

namespace Sys2Proof.Machine

/-- `lvl = 1 and cur > 0`: a high-byte sample sets a bit (R71). -/
def setsHighBit (lvl : Bool) (cur : Cursor) : Bool := lvl && decide (cur ≠ 0)

/-- `lvl = 1 and 0 < cur and cur < 9`: a low-byte sample sets a bit (R72). -/
def setsLowBit (lvl : Bool) (cur : Cursor) : Bool := lvl && decide (cur ≠ 0) && decide (cur.toNat < 9)

/-- `cur = 0`: the byte's budget is used up (R71, R72). -/
def budgetUsed (cur : Cursor) : Bool := decide (cur = 0)

end Sys2Proof.Machine
end

