-- ==== Sys2Proof/Machine/Memory.lean ====
section
/-! DEFINITION. The Decoded Output Buffer: one address space of two one-byte cells (20_memory.md R30 to R32). -/

namespace Sys2Proof.Machine

/-- The two cells; no other address can be written down (R31). -/
inductive BufferCell where
  /-- Index 0, the published copy of highByte (R30). -/
  | high
  /-- Index 1, the published copy of lowByte (R30). -/
  | low
deriving DecidableEq, Repr

/-- The index of a cell (R30, decision D12). -/
def BufferCell.index : BufferCell → Nat
  | .high => 0
  | .low => 1

/-- What an index that is not listed reads as: the buffer's reset value (R22, D6). UNVERIFIED (unsafe): log 5. -/
def unlistedByte : Byte := 0

/-- The byte at an index. -/
def readCell : Memory → Nat → Byte
  | [], _ => unlistedByte
  | (i, b) :: rest, a => if i = a then b else readCell rest a

/-- Put an entry in its place among rising indices. -/
def insertCell (a : Nat) (b : Byte) : Memory → Memory
  | [] => [(a, b)]
  | (i, c) :: rest => if a < i then (a, b) :: (i, c) :: rest else (i, c) :: insertCell a b rest

/-- Drop every entry of an index. -/
def eraseCell (a : Nat) : Memory → Memory
  | [] => []
  | (i, c) :: rest => if i = a then eraseCell a rest else (i, c) :: eraseCell a rest

/-- Write a byte; writing what an unlisted index reads as removes the entry, so that equal buffers are equal lists. -/
def writeCell (m : Memory) (a : Nat) (b : Byte) : Memory :=
  if b = unlistedByte then eraseCell a m else insertCell a b (eraseCell a m)

/-- The canonical form from index `from_` on: indices strictly rising, each one of the two cells, no entry equal to what
an unlisted index reads as. -/
def canonicalFrom (from_ : Nat) : Memory → Bool
  | [] => true
  | (i, b) :: rest => decide (from_ ≤ i) && decide (i < 2) && decide (b ≠ unlistedByte) && canonicalFrom (i + 1) rest

/-- The buffer is in its canonical form. -/
def Memory.wf (m : Memory) : Bool := canonicalFrom 0 m

/-- The consumer's 16-bit reading of two bytes, `(h << 8) | l`: the first is the more significant (R32, R82). The hardware
offers no 16-bit access; the consumer combines. -/
def reading (h l : Byte) : BitVec 16 := h ++ l

end Sys2Proof.Machine
end

