-- ==== Sys2Proof/Machine/Operands.lean ====
section
/-! DEFINITION. The arithmetic on the operands of the Sample-Timer Handler (41_sample_timer.md R74, R75), and the two
sample budgets (00_scope.md R4). -/

namespace Sys2Proof.Machine

/-- The high-byte budget `HB`: 8 data bits and a parity (R4). -/
def highBudget : Cursor := 9

/-- The low-byte budget `LB`: a placeholder, 8 data bits and a parity (R4). -/
def lowBudget : Cursor := 10

/-- `setbit(v, k)` (R7, R74): a bitwise OR with a one-hot mask; for `k >= 8` the value unchanged (decision D10).
UNVERIFIED (safe: unreachable): log 13. -/
def setbit (v : Byte) (k : Nat) : Byte := if k ≤ 7 then v ||| (1#8 <<< k) else v

/-- The guarded decrement `if cur > 0: cur <- cur - 1` (R75): never below 0. -/
def countSample (cur : Cursor) : Cursor := if cur = 0 then 0 else cur - 1

/-- The accumulator bit that a cursor, already decremented and above 0, selects: `cur - 1` (R71, R72). -/
def bitIndex (cur : Cursor) : Nat := cur.toNat - 1

end Sys2Proof.Machine
end

