-- ==== Sys2Proof/Machine/Ops.lean ====
section
/-! DEFINITION. The named operations over registers, buffer and commands from which every meaning is built (the pseudocode
primitives of 00_scope.md R7), the entry of the Sample-Timer Handler, and reset. Taking an exception does not exist
(60_exceptions.md R90); taking an interrupt is in Machine/Interrupt.lean. -/

namespace Sys2Proof.Machine

/-- An operation starts with its outputs inactive: no command issued, no byte returned (R6, R21). -/
def beginOperation (s : State) : State := { s with cmds := [], rdData := none }

/-- `fs <- X` (R7). -/
def writeFs (fs : FrameState) (s : State) : State := { s with engine := { s.engine with fs := fs } }

/-- `strobe <- v`, `TW` bits (R12). -/
def writeStrobe (v : Nat) (s : State) : State := { s with engine := { s.engine with strobe := truncTW s.tw v } }

/-- `cur <- v` (R13). -/
def writeCur (v : Cursor) (s : State) : State := { s with engine := { s.engine with cur := v } }

/-- `hi <- v` (R14). -/
def writeHi (v : Byte) (s : State) : State := { s with engine := { s.engine with hi := v } }

/-- `lo <- v` (R14). -/
def writeLo (v : Byte) (s : State) : State := { s with engine := { s.engine with lo := v } }

/-- `MemRead(c, 1)` (R7, R31). -/
def memRead (c : BufferCell) (s : State) : Byte := readCell s.engine.out c.index

/-- `MemWrite(c, 1, v)` (R7, R31). -/
def memWrite (c : BufferCell) (v : Byte) (s : State) : State :=
  { s with engine := { s.engine with out := writeCell s.engine.out c.index v } }

/-- `cmd NAME(args)` (R7): recorded in the operation's command list, and applied to the collaborators at once. -/
def issue (c : Command) (s : State) : State := { s with cmds := s.cmds ++ [c], env := applyCommand s.tw c s.env }

/-- A byte returned to the consumer (R80, R81), which is also the trace's observation (R135). -/
def returnByte (b : Byte) (s : State) : State := { s with rdData := some b, results := s.results ++ [b] }

/-- The publish of EDGE.ASF: `MemWrite(0, 1, hi); MemWrite(1, 1, lo)` (R61). -/
def publish (s : State) : State := memWrite .low s.engine.lo (memWrite .high s.engine.hi s)

/-- Arm a sample window: `clearCount(); startPeriodic(strobe)` (R63 to R65). -/
def armWindow (s : State) : State := issue (.startPeriodic s.engine.strobe) (issue .clearCount s)

/-- The housekeeping with which every SAMP operation begins (R70). -/
def sampleEntry (s : State) : State := issue .clearCount (issue .stopPeriodic s)

/-- `if cur > 0: cur <- cur - 1` (R71, R72, R75). -/
def takeSample (s : State) : State := writeCur (countSample s.engine.cur) s

/-- `if lvl = 1 and cur > 0: hi <- setbit(hi, cur - 1)` (R71). -/
def placeHighBit (lvl : Bool) (s : State) : State :=
  bif setsHighBit lvl s.engine.cur then writeHi (setbit s.engine.hi (bitIndex s.engine.cur)) s else s

/-- `if lvl = 1 and 0 < cur and cur < 9: lo <- setbit(lo, cur - 1)` (R72). -/
def placeLowBit (lvl : Bool) (s : State) : State :=
  bif setsLowBit lvl s.engine.cur then writeLo (setbit s.engine.lo (bitIndex s.engine.cur)) s else s

/-- `if cur = 0: fs <- X; cur <- budget` (R71, R72). -/
def endOfByte (fs : FrameState) (budget : Cursor) (s : State) : State :=
  bif budgetUsed s.engine.cur then writeCur budget (writeFs fs s) else s

/-- The reset input: the engine takes the values of R22 and the collaborators those of R23, whenever it is asserted (R120,
D24). What belongs to the run and not to the machine stays: log 26. -/
def applyReset (s : State) : State :=
  { s with engine := EngineState.reset, env := EnvState.reset, cmds := [], rdData := none }

end Sys2Proof.Machine
end

