-- ==== Sys2Proof/Machine/ConsumerRead.lean ====
section
/-! DEFINITION. The consumer's two read operations (42_consumer_read.md R80, R81): no state of the engine or of the
environment changes (20_memory.md R37). -/

namespace Sys2Proof.Machine

/-- RDHI: returns `OUT[0]` (R80). The `fs` field is ignored (R54). -/
def execRdhi (_fs : FrameState) (s : State) : Host.Outcome State Fault Refusal :=
  .next (returnByte (memRead .high s) (beginOperation s))

/-- RDLO: returns `OUT[1]` (R81). The `fs` field is ignored (R54). -/
def execRdlo (_fs : FrameState) (s : State) : Host.Outcome State Fault Refusal :=
  .next (returnByte (memRead .low s) (beginOperation s))

end Sys2Proof.Machine
end

