-- ==== Sys2Proof/Machine/LineEdge.lean ====
section
/-! DEFINITION. The five Line-Edge Handler operations (40_line_edge.md R61 to R66): selected by FrameState alone, no line
level looked at, no flag, no exception. -/

namespace Sys2Proof.Machine

/-- EDGE.ASF: publish, clear both accumulators, arm the strobe measurement (R61). `cnt` is ignored (R48). -/
def execEdgeAsf (_cnt : Nat) (s : State) : Host.Outcome State Fault Refusal :=
  .next (writeFs .asr (issue .startFreeRunning (issue .selectRisingEdge
    (writeLo 0 (writeHi 0 (publish (beginOperation s)))))))

/-- EDGE.ASR: capture the strobe, the count as read after `stop()`, unhalved (R62; 90_conflicts.md C1; log 14). -/
def execEdgeAsr (cnt : Nat) (s : State) : Host.Outcome State Fault Refusal :=
  .next (writeFs .acq (issue .selectFallingEdge (writeStrobe cnt (issue .stop (beginOperation s)))))

/-- EDGE.ACQ: arm the first sample, load the high-byte budget (R63). `cnt` is ignored (R48). -/
def execEdgeAcq (_cnt : Nat) (s : State) : Host.Outcome State Fault Refusal :=
  .next (writeFs .rhb (writeCur highBudget (armWindow (beginOperation s))))

/-- EDGE.RHB: re-arm the sample window; no engine register changes (R64). `cnt` is ignored (R48). -/
def execEdgeRhb (_cnt : Nat) (s : State) : Host.Outcome State Fault Refusal :=
  .next (armWindow (beginOperation s))

/-- EDGE.RLB: re-arm the sample window; no engine register changes (R65). `cnt` is ignored (R48). -/
def execEdgeRlb (_cnt : Nat) (s : State) : Host.Outcome State Fault Refusal :=
  .next (armWindow (beginOperation s))

end Sys2Proof.Machine
end

