-- ==== Sys2Proof/Machine/SampleTimer.lean ====
section
/-! DEFINITION. The five Sample-Timer Handler operations (41_sample_timer.md R70 to R73). The cursor is decremented first and
its NEW value tested (90_conflicts.md C2; log 12). -/

namespace Sys2Proof.Machine

/-- SAMP.ASF: the entry housekeeping only (R73, decision D9). `lvl` is ignored. UNVERIFIED: log 11. -/
def execSampAsf (_lvl : Bool) (s : State) : Host.Outcome State Fault Refusal :=
  .next (sampleEntry (beginOperation s))

/-- SAMP.ASR: the entry housekeeping only (R73, decision D9). `lvl` is ignored. UNVERIFIED: log 11. -/
def execSampAsr (_lvl : Bool) (s : State) : Host.Outcome State Fault Refusal :=
  .next (sampleEntry (beginOperation s))

/-- SAMP.ACQ: the entry housekeeping only (R73, decision D9). `lvl` is ignored. UNVERIFIED: log 11. -/
def execSampAcq (_lvl : Bool) (s : State) : Host.Outcome State Fault Refusal :=
  .next (sampleEntry (beginOperation s))

/-- SAMP.RHB: one sample of the high byte; the ninth moves to ReadingLowByte with the low-byte budget (R71). -/
def execSampRhb (lvl : Bool) (s : State) : Host.Outcome State Fault Refusal :=
  .next (endOfByte .rlb lowBudget (placeHighBit lvl (takeSample (sampleEntry (beginOperation s)))))

/-- SAMP.RLB: one sample of the low byte; the tenth moves to AwaitingStartFalling with the high-byte budget (R72). -/
def execSampRlb (lvl : Bool) (s : State) : Host.Outcome State Fault Refusal :=
  .next (endOfByte .asf highBudget (placeLowBit lvl (takeSample (sampleEntry (beginOperation s)))))

end Sys2Proof.Machine
end

