-- ==== Sys2Proof/Machine/Dispatch.lean ====
section
/-! DEFINITION. One arm per operation of `spec/opcode_table.json`, each a direct call of its meaning (30_encoding.md R52). -/

namespace Sys2Proof.Machine

def exec (i : Instr) (s : State) : Host.Outcome State Fault Refusal :=
  match i with
  | .edgeAsf cnt => Sys2Proof.Machine.execEdgeAsf cnt s
  | .edgeAsr cnt => Sys2Proof.Machine.execEdgeAsr cnt s
  | .edgeAcq cnt => Sys2Proof.Machine.execEdgeAcq cnt s
  | .edgeRhb cnt => Sys2Proof.Machine.execEdgeRhb cnt s
  | .edgeRlb cnt => Sys2Proof.Machine.execEdgeRlb cnt s
  | .sampAsf lvl => Sys2Proof.Machine.execSampAsf lvl s
  | .sampAsr lvl => Sys2Proof.Machine.execSampAsr lvl s
  | .sampAcq lvl => Sys2Proof.Machine.execSampAcq lvl s
  | .sampRhb lvl => Sys2Proof.Machine.execSampRhb lvl s
  | .sampRlb lvl => Sys2Proof.Machine.execSampRlb lvl s
  | .rdhi fs => Sys2Proof.Machine.execRdhi fs s
  | .rdlo fs => Sys2Proof.Machine.execRdlo fs s

end Sys2Proof.Machine
end

