-- ==== Sys2Proof/Machine/Interrupt.lean ====
section
/-! DEFINITION. Taking an interrupt: the dispatch of the two pending latches (60_exceptions.md R91 to R97, R107). An
interrupt saves nothing and changes no mode (R96); there is no return operation (R97). -/

namespace Sys2Proof.Machine

/-- An interrupt of either kind is latched and not yet dispatched (R19). -/
def interruptPending (s : State) : Bool := s.env.edgePend || s.env.cmPend

/-- Layer 2 refuses a run in which the engine issued `startPeriodic(0)` (R103 (b), R130). Log 10. -/
def refuseZeroStrobe : Host.Outcome State Fault Refusal → Host.Outcome State Fault Refusal
  | .next t => if Command.startPeriodic 0 ∈ t.cmds then .refused .zeroStrobe else .next t
  | .fault r => .fault r
  | .refused r => .refused r

/-- Clear `edge_pend` (R94). -/
def clearEdgePend (s : State) : State := { s with env := { s.env with edgePend := false } }

/-- Clear `cm_pend` (R94). -/
def clearCmPend (s : State) : State := { s with env := { s.env with cmPend := false } }

/-- Dispatch LINE_EDGE: clear its latch and run the Line-Edge Handler with the count as it reads it, `cnt = tcnt` (R94,
R102). -/
def dispatchEdge (s : State) : Host.Outcome State Fault Refusal :=
  refuseZeroStrobe (exec (operationOf s.engine.fs (.edge s.env.tcnt)) (clearEdgePend s))

/-- Dispatch COMPARE_MATCH: clear its latch and run the Sample-Timer Handler with the level of the line at this tick, which
the edge detector has just recorded (R94, R105, R107). Log 20. -/
def dispatchSample (s : State) : Host.Outcome State Fault Refusal :=
  refuseZeroStrobe (exec (operationOf s.engine.fs (.samp s.env.linePrev)) (clearCmPend s))

/-- Count one drawn choice of the dispatch order. -/
def drawOrder (s : State) : State := { s with draws := s.draws + 1 }

/-- One round of R107's dispatch loop: "choose one set latch (either, if both: rule R95)". -/
def dispatchPending (s : State) : Host.Outcome State Fault Refusal :=
  if s.env.edgePend && s.env.cmPend then
    if Config.edgeFirst s.draws then dispatchEdge (drawOrder s) else dispatchSample (drawOrder s)
  else if s.env.edgePend then dispatchEdge s
  else dispatchSample s

end Sys2Proof.Machine
end

