-- ==== Sys2Proof/Machine/Fetch.lean ====
section
/-! DEFINITION. What a step does: dispatch a latched interrupt, else consume the next input (00_scope.md R5; 60_exceptions.md
R94, R107). Nothing is fetched from memory (20_memory.md R44). -/

namespace Sys2Proof.Machine

/-- The operation that an event word performs in the present FrameState (30_encoding.md R51, R52). A number of more than
`TW + 2` bits is no event word. DESIGN CHOICE (safe): log 16. -/
def decodeEventWord (s : State) (ew : Nat) : Except DecodeRefusal Instr :=
  if ew < 4 * 2 ^ s.tw then decode s.tw (dispatchWord s.tw s.engine.fs ew) else .error .overwideWord

/-- A Layer 1 event: decode its word and run the operation (R6, R51). -/
def runEventWord (ew : Nat) (s : State) : Host.Outcome State Fault Refusal :=
  match decodeEventWord s ew with
  | .ok i => exec i s
  | .error why => .refused (.undecodable why)

/-- A timer in periodic mode with period 0 has no meaning (R103 (b), R130). Log 10. -/
def zeroPeriod (e : EnvState) : Bool := decide (e.tmode = .periodic) && decide (e.tper = 0)

/-- One tick of the reference environment up to its dispatch loop, whose rounds are the steps that follow (R107). Log 8. -/
def runTick (line : Bool) (s : State) : Host.Outcome State Fault Refusal :=
  if zeroPeriod s.env then .refused .zeroStrobe
  else .next { s with time := s.time + 1, env := collaboratorTick s.tw line s.env }

/-- The effect of one input. -/
def takeInput (input : Input) (s : State) : Host.Outcome State Fault Refusal :=
  match input with
  | .event ew => runEventWord ew s
  | .tick line => runTick line s
  | .rst => .next (applyReset s)

/-- One step: a set latch is dispatched first (zero latency, R107); else the next input is consumed; with none left the
engine is idle (R111). -/
def runNext (s : State) : Host.Outcome State Fault Refusal :=
  if interruptPending s then dispatchPending s
  else
    match s.inputs with
    | [] => .next s
    | input :: rest => takeInput input { s with inputs := rest }

/-- Place a dispatch word so that the very next step runs it: its `fs` field in FrameState, its event word first among the
inputs, and no latch set that would be dispatched before it. A word whose `fs` field is reserved stands in no state, and is
placed whole, so that the step refuses it: as a too wide event word, `overwideWord`, and not under
R53 (a)'s name, which is for a dispatch word with such a field. DESIGN CHOICE (safe): log 15. -/
def placeDispatchWord (s : State) (w : Nat) : State :=
  let s' := clearEdgePend (clearCmPend s)
  match frameOfCode (frameField s.tw w) with
  | some fs => { writeFs fs s' with inputs := .event (w % (4 * 2 ^ s.tw)) :: s.inputs }
  | none => { s' with inputs := .event w :: s.inputs }

end Sys2Proof.Machine
end

