-- ==== Sys2Proof/Machine/Trace.lean ====
section
/-! DEFINITION. The trace notation and its pseudo-events (30_encoding.md R55, R56): macros that add no behaviour. -/

namespace Sys2Proof.Machine

/-- The inputs of a Layer 1 trace, each event as its event word (R55). -/
def traceInputs (tw : Nat) (es : List Event) : List Input := es.map fun e => .event (eventWord tw e)

/-- `FALL`: `EDGE` with the argument omitted (R55, R56). -/
def fall : List Event := [.edge 0]

/-- `RISE n` (R56). -/
def rise (n : Nat) : List Event := [.edge n]

/-- `START n`: slot 0 (R56). -/
def startSlot (n : Nat) : List Event := fall ++ rise n

/-- `BIT b`: one of slots 1 to 19 (R56). -/
def bitSlot (b : Bool) : List Event := fall ++ [.samp b]

/-- The bits of a byte, most significant first (R33). -/
def bitsMsbFirst (v : Byte) : List Bool :=
  [v.getLsbD 7, v.getLsbD 6, v.getLsbD 5, v.getLsbD 4, v.getLsbD 3, v.getLsbD 2, v.getLsbD 1, v.getLsbD 0]

/-- `HBYTE v p`: slots 1 to 9 (R56). -/
def highByteSlots (v : Byte) (p : Bool) : List Event := (bitsMsbFirst v ++ [p]).flatMap bitSlot

/-- `LBYTE x v p`: slots 10 to 19 (R56). -/
def lowByteSlots (x : Bool) (v : Byte) (p : Bool) : List Event := (x :: (bitsMsbFirst v ++ [p])).flatMap bitSlot

/-- `FRAME n vh ph x vl pl`: one well-formed frame, 40 events (R45, R56). -/
def frame (n : Nat) (vh : Byte) (ph x : Bool) (vl : Byte) (pl : Bool) : List Event :=
  startSlot n ++ highByteSlots vh ph ++ lowByteSlots x vl pl

/-- `RD16`: one of the admitted read orders (R56, R82). -/
def rd16 : List Event := [.rdhi, .rdlo]

end Sys2Proof.Machine
end

