-- ==== Sys2Proof/Machine/Step.lean ====
section
/-! DEFINITION. The step function, and how a table word is placed as the next operation. -/

namespace Sys2Proof.Machine

/-- One step of the machine: one dispatched operation, one tick, one reset, or idling (20_memory.md R39). -/
def step (s : State) : Host.Outcome State Fault Refusal := runNext s

/-- `s` with the dispatch word `w` placed so that the very next step runs it (log 15). -/
def State.withFetchWord (s : State) (nbits w : Nat) : State := placeDispatchWord s (w % 2 ^ nbits)

end Sys2Proof.Machine
end

