-- ==== Sys2Proof/Safety.lean ====
section
/-! DEFINITION. The terms in which claims speak of good states and of traces: the invariants of the reachable states
(10_state.md R24 to R28) and what an event of a trace counts as (70_reset_and_hazards.md R134). -/

namespace Sys2Proof.Machine

/-- `TW >= 1`, and every value of `TW` bits is below `2^TW` (00_scope.md R4, R7). -/
abbrev widthsHold (s : State) : Prop :=
  1 ≤ s.tw ∧ s.engine.strobe < 2 ^ s.tw ∧ s.env.tper < 2 ^ s.tw ∧ s.env.tcnt < 2 ^ s.tw

/-- The cursor ranges between operations (R26). -/
def cursorInRange (e : EngineState) : Bool :=
  match e.fs with
  | .rhb => decide (1 ≤ e.cur.toNat) && decide (e.cur.toNat ≤ 9)
  | .rlb => decide (1 ≤ e.cur.toNat) && decide (e.cur.toNat ≤ 10)
  | .asf => decide (e.cur = 9)
  | .asr => decide (e.cur = 9)
  | .acq => decide (e.cur = 9)

/-- The edge that the Edge Controller selects in a FrameState (R27). -/
def edgeSelOf : FrameState → EdgeSel
  | .asr => .rising
  | .asf => .falling
  | .acq => .falling
  | .rhb => .falling
  | .rlb => .falling

/-- `fs` is RHB or RLB: a byte is being read. -/
def insideByte : FrameState → Bool
  | .rhb => true
  | .rlb => true
  | .asf => false
  | .asr => false
  | .acq => false

/-- The invariant of every reachable state: widths, cursor ranges (R26), the selected edge (R27), and the buffer in its
canonical form. -/
abbrev State.good (s : State) : Prop :=
  widthsHold s ∧ cursorInRange s.engine = true ∧ s.env.edgesel = edgeSelOf s.engine.fs ∧ Memory.wf s.engine.out = true

/-- The timer agrees with FrameState (R28), a compare match is latched only inside a byte. -/
abbrev timerAgrees (s : State) : Prop :=
  (s.env.tmode = .periodic → insideByte s.engine.fs = true) ∧
  (s.env.cmPend = true → insideByte s.engine.fs = true) ∧
  (s.engine.fs = .asf → s.env.tmode = .stopped ∧ s.env.tcnt = 0) ∧
  (s.engine.fs = .asr → s.env.tmode = .freeRunning) ∧
  (s.engine.fs = .acq → s.env.tmode = .stopped)

/-- An input of a Layer 2 run: a tick, a reset, or a read of the consumer (R107); no hand-written EDGE or SAMP. -/
def Input.layer2 (tw : Nat) : Input → Bool
  | .tick _ => true
  | .rst => true
  | .event ew => decide (2 * 2 ^ tw ≤ ew)

/-- A Layer 2 run: every event comes from the reference environment or from the consumer (R6, R107). -/
abbrev layer2Run (s : State) : Prop := s.inputs.all (Input.layer2 s.tw) = true

/-- The levels sampled along a trace, in order. -/
def sampleLevels : List Event → List Bool
  | [] => []
  | .samp b :: es => b :: sampleLevels es
  | .edge _ :: es => sampleLevels es
  | .rdhi :: es => sampleLevels es
  | .rdlo :: es => sampleLevels es

/-- How many SAMP events a trace has (R134: "Counting only SAMP events"). -/
def sampleCount (es : List Event) : Nat := (sampleLevels es).length

/-- Every event of the trace can be spelled at this width (30_encoding.md R51). -/
abbrev spelled (tw : Nat) (es : List Event) : Prop := es.all (Event.wf tw) = true

/-- No interrupt is latched, and the trace `es` is what comes next among the inputs. -/
abbrev facing (s : State) (es : List Event) (rest : List Input) : Prop :=
  interruptPending s = false ∧ s.inputs = traceInputs s.tw es ++ rest

/-- `k` steps, stopping at the first fault or refusal; the same as the host's `Core.run` (`runSteps_eq_coreRun`). -/
def runSteps : Nat → State → Host.Outcome State Fault Refusal
  | 0, s => .next s
  | k + 1, s =>
    match step s with
    | .next t => runSteps k t
    | .fault r => .fault r
    | .refused r => .refused r

/-- How many interrupts are latched. -/
def latchCount (s : State) : Nat := s.env.edgePend.toNat + s.env.cmPend.toNat

/-- The reset input is the next input. -/
abbrev resetNext (s : State) : Prop := interruptPending s = false ∧ s.inputs.head? = some .rst

/-- What Layer 1 sees after an operation: the engine, the commands, the byte returned (00_scope.md R6). -/
abbrev layer1View (s : State) : EngineState × List Command × Option Byte := (s.engine, s.cmds, s.rdData)

end Sys2Proof.Machine
end

