-- ==== Sys2Proof/Certificates/Slice0/Obligations.lean ====
section
/-! DEFINITION. The statements for the provers, in the order of OBLIGATIONS.json: encoding, the step, the twelve operations,
the shared operations, the collaborators, interrupts and reset, invariants and whole-machine rules, the laws of traces. -/

open Sys2Proof Sys2Proof.Machine

/-! ### Encoding -/

/-- The dispatch word of every well-formed operation, at every width, decodes to that operation (30_encoding.md R51, R52). -/
def Obligations.DecodeOfEncodeIsIdentity : Prop :=
  ∀ (tw : Nat) (i : Instr), Instr.wf tw i = true → decode tw (encode tw i) = .ok i

/-- A word that decodes is the encoding of the well-formed operation it decodes to: each word has one meaning (R52). -/
def Obligations.EncodeOfDecodeIsIdentity : Prop :=
  ∀ (tw w : Nat) (i : Instr), 1 ≤ tw → decode tw w = .ok i → encode tw i = w ∧ Instr.wf tw i = true

/-- Which words are refused, under which name, and that every other word decodes (R51, R53). The refusal of a word wider than
`TW + 5` bits, and the name for a word reserved on two grounds, are the model's choices (log 16, log 29). -/
def Obligations.DecoderRefusesReservedWords : Prop :=
  ∀ (tw w : Nat), 1 ≤ tw →
    (2 ^ (tw + 5) ≤ w → decode tw w = .error .overwideWord) ∧
    (5 * 2 ^ (tw + 2) ≤ w → w < 2 ^ (tw + 5) → decode tw w = .error .reservedFrameState) ∧
    (w < 5 * 2 ^ (tw + 2) → w / 2 ^ tw % 4 = 3 → decode tw w = .error .reservedEventKind) ∧
    (w < 5 * 2 ^ (tw + 2) → (w / 2 ^ tw % 4 = 1 ∨ w / 2 ^ tw % 4 = 2) → 2 ≤ w % 2 ^ tw →
      decode tw w = .error .reservedArgument) ∧
    (w < 5 * 2 ^ (tw + 2) → (w / 2 ^ tw % 4 = 0 ∨ (w / 2 ^ tw % 4 ≠ 3 ∧ w % 2 ^ tw < 2)) → ∃ i, decode tw w = .ok i)

/-- Dispatch words written out in the spec's vectors decode to their operations (95_test_vectors.md V10 to V13, V18). -/
def Obligations.VectorWordsDecode : Prop :=
  decodeTableWord 16 0x0037 = some (.edgeAsf 55) ∧ decodeTableWord 16 0x04FF = some (.edgeAsr 255) ∧
  decodeTableWord 16 0x0807 = some (.edgeAcq 7) ∧ decodeTableWord 16 0x0C09 = some (.edgeRhb 9) ∧
  decodeTableWord 16 0x1000 = some (.edgeRlb 0) ∧ decodeTableWord 16 0x0101 = some (.sampAsf true) ∧
  decodeTableWord 16 0x0501 = some (.sampAsr true) ∧ decodeTableWord 16 0x0900 = some (.sampAcq false) ∧
  decodeTableWord 16 0x0D01 = some (.sampRhb true) ∧ decodeTableWord 16 0x1101 = some (.sampRlb true) ∧
  decodeTableWord 16 0x0E00 = some (.rdhi .rhb) ∧ decodeTableWord 16 0x0E01 = some (.rdlo .rhb) ∧
  decodeTableWord 16 0x1400 = none ∧ decodeTableWord 16 0x0300 = none ∧ decodeTableWord 16 0x0D02 = none ∧
  decodeTableWord 16 0x0202 = none

/-! ### The step -/

/-- A step whose next input is an event word runs the operation that `fs ++ EW` decodes to, on the state with that input
consumed (R51; 00_scope.md R5). That a latched interrupt goes first is log 8. -/
def Obligations.StepRunsTheDecodedWord : Prop :=
  ∀ (s : State) (ew : Nat) (rest : List Input) (i : Instr), interruptPending s = false → s.inputs = .event ew :: rest →
    ew < 4 * 2 ^ s.tw → decode s.tw (dispatchWord s.tw s.engine.fs ew) = .ok i → step s = exec i { s with inputs := rest }

/-- An event of a trace performs the operation that R52's map gives it in the present FrameState (R51, R52, R54). -/
def Obligations.EventPerformsTheMappedOperation : Prop :=
  ∀ (s : State) (e : Event) (rest : List Input), Event.wf s.tw e = true → facing s [e] rest →
    step s = exec (operationOf s.engine.fs e) { s with inputs := rest }

/-- A dispatch word placed by `withFetchWord` is what the very next step runs. The placing is the model's own (log 15). -/
def Obligations.PlacedWordRunsNext : Prop :=
  ∀ (s : State) (nbits w : Nat) (i : Instr), decode s.tw (w % 2 ^ nbits) = .ok i →
    step (s.withFetchWord nbits w) = exec i { s with
      engine := { s.engine with fs := i.frame }, env := { s.env with edgePend := false, cmPend := false } }

/-- Every event is accepted in every state, with exactly its own input consumed and no interrupt latched (R68, R134). -/
def Obligations.EveryEventIsAccepted : Prop :=
  ∀ (s : State) (e : Event) (rest : List Input), Event.wf s.tw e = true → facing s [e] rest →
    ∃ t, step s = .next t ∧ t.inputs = rest ∧ interruptPending t = false

/-! ### The twelve operations

First three statements in Layer 1's terms alone (R6: the engine, the command list, the byte returned), then for every
operation the whole next state. The effects on the collaborators in the latter are the spec's decisions D16 and D17, and that
they happen in a Layer 1 event too is the model's choice: log 9, log 21, log 22. -/

/-- EDGE.ASR in Layer 1, with its words at the reference width: the count is stored as read (R62). -/
def Obligations.EdgeAsrStoresTheCountAsRead : Prop :=
  (∀ cnt, cnt < 256 → decodeTableWord 16 (0x0400 + cnt) = some (.edgeAsr cnt)) ∧
  ∀ (cnt : Nat) (s : State), Instr.wf s.tw (.edgeAsr cnt) = true → ∃ t, exec (.edgeAsr cnt) s = .next t ∧
    layer1View t = ({ s.engine with fs := .acq, strobe := cnt }, [.stop, .selectFallingEdge], none)

/-- EDGE.ACQ, EDGE.RHB and EDGE.RLB in Layer 1, with their words at the reference width: all three issue `clearCount` and
`startPeriodic(strobe)`; the first also loads 9 and moves to RHB, the others leave the engine as it is (R63, R64, R65). -/
def Obligations.WindowEdgesClearAndRestart : Prop :=
  (∀ cnt, cnt < 256 → decodeTableWord 16 (0x0800 + cnt) = some (.edgeAcq cnt) ∧
    decodeTableWord 16 (0x0C00 + cnt) = some (.edgeRhb cnt) ∧ decodeTableWord 16 (0x1000 + cnt) = some (.edgeRlb cnt)) ∧
  ∀ (cnt : Nat) (s : State),
    (∃ t, exec (.edgeAcq cnt) s = .next t ∧
      layer1View t = ({ s.engine with fs := .rhb, cur := 9 }, [.clearCount, .startPeriodic s.engine.strobe], none)) ∧
    (∃ t, exec (.edgeRhb cnt) s = .next t ∧
      layer1View t = (s.engine, [.clearCount, .startPeriodic s.engine.strobe], none)) ∧
    (∃ t, exec (.edgeRlb cnt) s = .next t ∧
      layer1View t = (s.engine, [.clearCount, .startPeriodic s.engine.strobe], none))

/-- EDGE.ASF in Layer 1, with its words at the reference width: the publish, unconditional and of the values before the
clear; the count is not cleared; no other operation writes the buffer (R61). -/
def Obligations.EdgeAsfAlonePublishes : Prop :=
  (∀ cnt, cnt < 256 → decodeTableWord 16 (0x0000 + cnt) = some (.edgeAsf cnt)) ∧
  (∀ (cnt : Nat) (s : State), ∃ t, exec (.edgeAsf cnt) s = .next t ∧
    layer1View t = ({ s.engine with fs := .asr, hi := 0, lo := 0, out := t.engine.out },
      [.selectRisingEdge, .startFreeRunning], none) ∧
    readCell t.engine.out 0 = s.engine.hi ∧ readCell t.engine.out 1 = s.engine.lo ∧ t.env.tcnt = s.env.tcnt) ∧
  ∀ (i : Instr) (s t : State), (∀ cnt, i ≠ .edgeAsf cnt) → exec i s = .next t → t.engine.out = s.engine.out

/-- EDGE.ASF publishes both accumulators, clears them, selects the rising edge, starts the timer free-running and moves to
ASR; `strobe`, `cur`, the count and every other cell stay (R61). -/
def Obligations.EdgeAsfPublishesAndClears : Prop :=
  ∀ (cnt : Nat) (s : State), ∃ t, exec (.edgeAsf cnt) s = .next t ∧
    t = { s with
      engine := { s.engine with fs := .asr, hi := 0, lo := 0, out := t.engine.out }
      env := { s.env with edgesel := .rising, tmode := .freeRunning }
      cmds := [.selectRisingEdge, .startFreeRunning]
      rdData := none } ∧
    readCell t.engine.out 0 = s.engine.hi ∧ readCell t.engine.out 1 = s.engine.lo ∧
    (∀ a, a ≠ 0 → a ≠ 1 → readCell t.engine.out a = readCell s.engine.out a)

/-- EDGE.ASR stops the timer, stores the count unhalved, selects the falling edge and moves to ACQ; nothing else (R62). -/
def Obligations.EdgeAsrCapturesStrobe : Prop :=
  ∀ (cnt : Nat) (s : State), Instr.wf s.tw (.edgeAsr cnt) = true →
    exec (.edgeAsr cnt) s = .next { s with
      engine := { s.engine with fs := .acq, strobe := cnt }
      env := { s.env with edgesel := .falling, tmode := .stopped }
      cmds := [.stop, .selectFallingEdge]
      rdData := none }

/-- EDGE.ACQ clears the count, starts the periodic mode with period `strobe`, loads 9 and moves to RHB; nothing else (R63). -/
def Obligations.EdgeAcqArmsFirstSample : Prop :=
  ∀ (cnt : Nat) (s : State), s.engine.strobe < 2 ^ s.tw →
    exec (.edgeAcq cnt) s = .next { s with
      engine := { s.engine with fs := .rhb, cur := 9 }
      env := { s.env with tcnt := 0, tper := s.engine.strobe, tmode := .periodic }
      cmds := [.clearCount, .startPeriodic s.engine.strobe]
      rdData := none }

/-- EDGE.RHB re-arms the sample window and changes no engine register (R64). -/
def Obligations.EdgeRhbRearmsWindow : Prop :=
  ∀ (cnt : Nat) (s : State), s.engine.strobe < 2 ^ s.tw →
    exec (.edgeRhb cnt) s = .next { s with
      env := { s.env with tcnt := 0, tper := s.engine.strobe, tmode := .periodic }
      cmds := [.clearCount, .startPeriodic s.engine.strobe]
      rdData := none }

/-- EDGE.RLB re-arms the sample window and changes no engine register (R65). -/
def Obligations.EdgeRlbRearmsWindow : Prop :=
  ∀ (cnt : Nat) (s : State), s.engine.strobe < 2 ^ s.tw →
    exec (.edgeRlb cnt) s = .next { s with
      env := { s.env with tcnt := 0, tper := s.engine.strobe, tmode := .periodic }
      cmds := [.clearCount, .startPeriodic s.engine.strobe]
      rdData := none }

/-- SAMP.RHB, in terms of the cursor it is entered with: entries 9 to 2 place the level in bits 7 to 0, entry 1 (parity) and
the unreachable entry 0 end the byte, entries of 10 and above only count; a low level clears nothing (R71, R74). The order of
the steps is the spec's decision D8, and no effect past bit 7 its decision D10: log 12, log 13. -/
def Obligations.SampRhbTakesOneSample : Prop :=
  ∀ (lvl : Bool) (s : State), ∃ fs' cur' hi', exec (.sampRhb lvl) s = .next { s with
      engine := { s.engine with fs := fs', cur := cur', hi := hi' }
      env := { s.env with tmode := .stopped, tcnt := 0 }
      cmds := [.stopPeriodic, .clearCount]
      rdData := none } ∧
    (s.engine.cur.toNat ≤ 1 → fs' = .rlb ∧ cur' = 10 ∧ hi' = s.engine.hi) ∧
    (2 ≤ s.engine.cur.toNat → fs' = s.engine.fs ∧ cur'.toNat = s.engine.cur.toNat - 1) ∧
    (2 ≤ s.engine.cur.toNat → s.engine.cur.toNat ≤ 9 → ∀ j,
      hi'.getLsbD j = (s.engine.hi.getLsbD j || (lvl && decide (j = s.engine.cur.toNat - 2)))) ∧
    (10 ≤ s.engine.cur.toNat → hi' = s.engine.hi)

/-- SAMP.RLB, in terms of the cursor it is entered with: entry 10 (placeholder) and above only count, entries 9 to 2 place
the level in bits 7 to 0, entry 1 (parity) and the unreachable entry 0 end the frame; the buffer stays (R72). The order of
the steps is the spec's decision D8: log 12. -/
def Obligations.SampRlbTakesOneSample : Prop :=
  ∀ (lvl : Bool) (s : State), ∃ fs' cur' lo', exec (.sampRlb lvl) s = .next { s with
      engine := { s.engine with fs := fs', cur := cur', lo := lo' }
      env := { s.env with tmode := .stopped, tcnt := 0 }
      cmds := [.stopPeriodic, .clearCount]
      rdData := none } ∧
    (s.engine.cur.toNat ≤ 1 → fs' = .asf ∧ cur' = 9 ∧ lo' = s.engine.lo) ∧
    (2 ≤ s.engine.cur.toNat → fs' = s.engine.fs ∧ cur'.toNat = s.engine.cur.toNat - 1) ∧
    (2 ≤ s.engine.cur.toNat → s.engine.cur.toNat ≤ 9 → ∀ j,
      lo'.getLsbD j = (s.engine.lo.getLsbD j || (lvl && decide (j = s.engine.cur.toNat - 2)))) ∧
    (10 ≤ s.engine.cur.toNat → lo' = s.engine.lo)

/-- SAMP outside a byte performs the entry housekeeping and changes no engine register (R73, the spec's decision D9; the
alternative U4 of refusing is not taken: log 11). -/
def Obligations.SampOutsideByteOnlyHousekeeps : Prop :=
  ∀ (i : Instr) (lvl : Bool) (s : State), (i = .sampAsf lvl ∨ i = .sampAsr lvl ∨ i = .sampAcq lvl) →
    exec i s = .next { s with
      env := { s.env with tmode := .stopped, tcnt := 0 }
      cmds := [.stopPeriodic, .clearCount]
      rdData := none }

/-- RDHI returns `OUT[0]`; no state of the engine or of the environment changes (R80). That the byte is also added to the
trace's observation is log 19. -/
def Obligations.RdhiReturnsHighByte : Prop :=
  ∀ (fs : FrameState) (s : State), exec (.rdhi fs) s = .next { s with
    cmds := [], rdData := some (readCell s.engine.out 0), results := s.results ++ [readCell s.engine.out 0] }

/-- RDLO returns `OUT[1]`; no state of the engine or of the environment changes (R81). That the byte is also added to the
trace's observation is log 19. -/
def Obligations.RdloReturnsLowByte : Prop :=
  ∀ (fs : FrameState) (s : State), exec (.rdlo fs) s = .next { s with
    cmds := [], rdData := some (readCell s.engine.out 1), results := s.results ++ [readCell s.engine.out 1] }

/-- Only EDGE.ASR reads the count: every other EDGE operation ignores its argument (R48). -/
def Obligations.CountIgnoredOutsideAsr : Prop :=
  ∀ (m n : Nat) (s : State), exec (.edgeAsf m) s = exec (.edgeAsf n) s ∧ exec (.edgeAcq m) s = exec (.edgeAcq n) s ∧
    exec (.edgeRhb m) s = exec (.edgeRhb n) s ∧ exec (.edgeRlb m) s = exec (.edgeRlb n) s

/-- The parity samples and the placeholder sample influence nothing (R77, R131). -/
def Obligations.ParityAndPlaceholderAreDiscarded : Prop :=
  ∀ (s : State), (s.engine.cur = 1 → exec (.sampRhb true) s = exec (.sampRhb false) s) ∧
    (s.engine.cur = 1 → exec (.sampRlb true) s = exec (.sampRlb false) s) ∧
    (s.engine.cur = 10 → exec (.sampRlb true) s = exec (.sampRlb false) s)

/-! ### Shared arithmetic -/

/-- `setbit` sets bit `k` and no other, and sets nothing when `k >= 8` (R74; the latter the spec's decision
D10: log 13). -/
def Obligations.SetbitSetsExactlyOneBit : Prop :=
  ∀ (v : Byte) (k j : Nat), (setbit v k).getLsbD j = (v.getLsbD j || (decide (k ≤ 7) && decide (j = k)))

/-- The cursor's decrement stops at 0 and never wraps (R75). -/
def Obligations.CursorDecrementSaturates : Prop := ∀ c : Cursor, (countSample c).toNat = c.toNat - 1

/-- The reading of two bytes is `(h << 8) | l` (R32, R82). -/
def Obligations.ReadingHasHighByteFirst : Prop := ∀ h l : Byte, (reading h l).toNat = 256 * h.toNat + l.toNat

/-! ### The collaborators -/

/-- Every command has the effect of R101 and R106 (the spec's decisions D16, D17: log 21, log 22) and no other; a period has
`TW` bits. -/
def Obligations.CommandsActOnCollaborators : Prop :=
  ∀ (tw : Nat) (p : Nat) (e : EnvState),
    applyCommand tw .selectFallingEdge e = { e with edgesel := .falling } ∧
    applyCommand tw .selectRisingEdge e = { e with edgesel := .rising } ∧
    applyCommand tw .enableLineInterrupt e = { e with lirqEn := true } ∧
    applyCommand tw .disableLineInterrupt e = { e with lirqEn := false } ∧
    applyCommand tw .startFreeRunning e = { e with tmode := .freeRunning } ∧
    applyCommand tw .stop e = { e with tmode := .stopped } ∧
    (p < 2 ^ tw → applyCommand tw (.startPeriodic p) e = { e with tper := p, tmode := .periodic }) ∧
    applyCommand tw .stopPeriodic e = { e with tmode := .stopped } ∧
    applyCommand tw .clearCount e = { e with tcnt := 0 }

/-- From any collaborators with no interrupt latched, bring-up's commands set the mode, the count, the selected edge and the
line interrupt enable to R23's values and touch nothing else; if the period is 0 and the line recorded high as well, what they
leave is the whole post-reset state of R23 (the spec's decision D7: log 4). Which commands bring-up issues is the model's
reading of R122 (3) to (5): log 30. -/
def Obligations.BringUpEstablishesResetState : Prop :=
  ∀ (tw : Nat) (e : EnvState), e.edgePend = false → e.cmPend = false →
    applyCommands tw bringUpCommands e = { EnvState.reset with tper := e.tper, linePrev := e.linePrev } ∧
    (e.tper = 0 → e.linePrev = true → applyCommands tw bringUpCommands e = EnvState.reset)

/-- With `clearCount(); startPeriodic(p)` and `p >= 1`, the first compare match comes after exactly `p` ticks (R100, the
spec's decision D16: log 21). -/
def Obligations.FirstCompareMatchAfterPeriod : Prop :=
  ∀ (tw p : Nat) (e : EnvState), 1 ≤ p → p < 2 ^ tw →
    (∀ k, k < p → (timerTick tw)^[k] (applyCommands tw [.clearCount, .startPeriodic p] e) =
      { e with tper := p, tmode := .periodic, tcnt := k }) ∧
    (timerTick tw)^[p] (applyCommands tw [.clearCount, .startPeriodic p] e) =
      { e with tper := p, tmode := .periodic, tcnt := 0, cmPend := true }

/-- With `startFreeRunning()` issued at count 0, the count after `d` ticks is `d mod 2^TW`, and nothing reports a wrap
(R100, R129; the spec's decision D16: log 21). -/
def Obligations.FreeRunningCountWraps : Prop :=
  ∀ (tw d : Nat) (e : EnvState), e.tcnt = 0 →
    (timerTick tw)^[d] (applyCommand tw .startFreeRunning e) = { e with tmode := .freeRunning, tcnt := d % 2 ^ tw }

/-- The edge detector latches exactly the selected transition, when enabled, and records the level (R92, R105; the spec's
decision D17: log 22). -/
def Obligations.EdgeDetectorLatchesSelectedEdge : Prop :=
  ∀ (line : Bool) (e : EnvState), edgeDetect line e = { e with
    edgePend := e.edgePend || (e.lirqEn && ((decide (e.edgesel = .falling) && e.linePrev && !line) ||
      (decide (e.edgesel = .rising) && !e.linePrev && line)))
    linePrev := line }

/-- A tick advances the time, then the timer, then the edge detector, and touches no engine register (R107). That the rounds
of the dispatch loop are the steps that follow is log 8. -/
def Obligations.TickAdvancesTimerThenEdges : Prop :=
  ∀ (s : State) (line : Bool) (rest : List Input), interruptPending s = false → s.inputs = .tick line :: rest →
    ¬(s.env.tmode = .periodic ∧ s.env.tper = 0) →
    step s = .next { s with inputs := rest, time := s.time + 1, env := edgeDetect line (timerTick s.tw s.env) }

/-! ### Interrupts, refusals, reset, idling -/

/-- One latched interrupt: its latch is cleared and its handler run, with `cnt = tcnt` or with the line level of this tick
(R94, R102, R107); the zero strobe that R103 (b) refuses is `ZeroStrobeIsRefused`. -/
def Obligations.LatchedInterruptIsDispatched : Prop :=
  ∀ (s : State),
    ((1 ≤ s.engine.strobe ∨ s.engine.fs = .asf ∨ s.engine.fs = .asr) →
      s.env.edgePend = true → s.env.cmPend = false → step s =
      exec (operationOf s.engine.fs (.edge s.env.tcnt)) { s with env := { s.env with edgePend := false } }) ∧
    (s.env.edgePend = false → s.env.cmPend = true → step s =
      exec (operationOf s.engine.fs (.samp s.env.linePrev)) { s with env := { s.env with cmPend := false } })

/-- Both latched: either may be dispatched first, as the free choice for this occurrence says, the other latch stays set, and
nothing else can happen (R95). With LINE_EDGE first, a zero strobe where the operation would issue it is refused (R103 (b)).
The free choice and the counter it is drawn with are the model's form of the open order (log 6). -/
def Obligations.EitherInterruptMayGoFirst : Prop :=
  ∀ (s : State), s.env.edgePend = true → s.env.cmPend = true →
    step s =
      if Config.edgeFirst s.draws = true then
        if s.engine.strobe = 0 ∧ (s.engine.fs = .acq ∨ s.engine.fs = .rhb ∨ s.engine.fs = .rlb) then .refused .zeroStrobe
        else exec (operationOf s.engine.fs (.edge s.env.tcnt))
          { s with env := { s.env with edgePend := false }, draws := s.draws + 1 }
      else exec (operationOf s.engine.fs (.samp s.env.linePrev))
        { s with env := { s.env with cmPend := false }, draws := s.draws + 1 }

/-- A step with an interrupt latched takes exactly one off and latches none, consumes no input and takes no time: the loop of
R107 runs at most twice per tick. -/
def Obligations.DispatchTakesOneLatchOff : Prop :=
  ∀ (s t : State), interruptPending s = true → step s = .next t →
    latchCount t + 1 = latchCount s ∧ t.inputs = s.inputs ∧ t.time = s.time

/-- Layer 2 refuses to issue `startPeriodic(0)`, and to tick a timer in periodic mode with period 0 (R103 (b), R130; the
second clause is log 10). -/
def Obligations.ZeroStrobeIsRefused : Prop :=
  ∀ (s : State),
    (s.env.edgePend = true → s.env.cmPend = false → s.engine.strobe = 0 →
      (s.engine.fs = .acq ∨ s.engine.fs = .rhb ∨ s.engine.fs = .rlb) → step s = .refused .zeroStrobe) ∧
    (∀ (line : Bool) (rest : List Input), interruptPending s = false → s.inputs = .tick line :: rest →
      s.env.tmode = .periodic → s.env.tper = 0 → step s = .refused .zeroStrobe)

/-- The reset input puts engine and collaborators at the values that the spec decides in R22 and R23, whatever they were
(R120, D6, D7, D24); the rest of the run goes on (log 26). -/
def Obligations.ResetInputRestoresResetValues : Prop :=
  ∀ (s : State) (rest : List Input), interruptPending s = false → s.inputs = .rst :: rest →
    step s = .next { s with
      engine := { fs := .asf, strobe := 0, cur := 9, hi := 0, lo := 0, out := [] }
      env := { edgesel := .falling, lirqEn := true, tmode := .stopped, tper := 0, tcnt := 0, edgePend := false,
               cmPend := false, linePrev := true }
      cmds := []
      rdData := none
      inputs := rest }

/-- The state after reset: FrameState is the source's value, the others the spec's decisions D6 and D7 (R22, R23). -/
def Obligations.ResetStateHoldsResetValues : Prop :=
  State.reset.engine.fs = .asf ∧ State.reset.engine.strobe = 0 ∧ State.reset.engine.cur = 9 ∧
  State.reset.engine.hi = 0 ∧ State.reset.engine.lo = 0 ∧ (∀ a, readCell State.reset.engine.out a = 0) ∧
  State.reset.env.edgesel = .falling ∧ State.reset.env.lirqEn = true ∧ State.reset.env.tmode = .stopped ∧
  State.reset.env.tper = 0 ∧ State.reset.env.tcnt = 0 ∧ State.reset.env.edgePend = false ∧
  State.reset.env.cmPend = false ∧ State.reset.env.linePrev = true

/-- With no interrupt latched and no input left the engine is idle, and all state survives (R111). -/
def Obligations.IdleStepKeepsEverything : Prop :=
  ∀ (s : State), interruptPending s = false → s.inputs = [] → step s = .next s

/-! ### Invariants and whole-machine rules -/

/-- The reset state meets the invariants. It rests on the spec's decided reset values (log 3, log 4). -/
def Obligations.ResetMeetsTheInvariants : Prop :=
  State.reset.good ∧ timerAgrees State.reset ∧ layer2Run State.reset

/-- Every step, from any state, on any input, keeps the widths, the cursor ranges (R26), the selected edge (R27) and the
canonical form of the buffer. -/
def Obligations.StepKeepsGoodStates : Prop :=
  ∀ (s t : State), s.good → step s = .next t → t.good

/-- In a Layer 2 run every step keeps the agreement of timer and FrameState (R28). -/
def Obligations.StepKeepsTimerAgreement : Prop :=
  ∀ (s t : State), timerAgrees s → layer2Run s → step s = .next t → timerAgrees t ∧ layer2Run t

/-- The buffer changes only in the publish of EDGE.ASF, to the pair in the accumulators, or by reset (R15, R24). -/
def Obligations.BufferChangesOnlyAtPublish : Prop :=
  ∀ (s t : State), step s = .next t → t.engine.out ≠ s.engine.out →
    (s.engine.fs = .asf ∧ t.engine.fs = .asr ∧ readCell t.engine.out 0 = s.engine.hi ∧
      readCell t.engine.out 1 = s.engine.lo) ∨
    (resetNext s ∧ t.engine = EngineState.reset)

/-- The strobe changes only in EDGE.ASR or by reset; between two EDGE.ASF operations and without a reset, bits of the
accumulators are only ever set (R25). -/
def Obligations.StrobeAndAccumulatorsAreStable : Prop :=
  ∀ (s t : State), step s = .next t → ¬resetNext s →
    (t.engine.strobe ≠ s.engine.strobe → s.engine.fs = .asr ∧ t.engine.fs = .acq) ∧
    (¬(s.engine.fs = .asf ∧ t.engine.fs = .asr) → ∀ k,
      (s.engine.hi.getLsbD k = true → t.engine.hi.getLsbD k = true) ∧
      (s.engine.lo.getLsbD k = true → t.engine.lo.getLsbD k = true))

/-- FrameState moves only along the cycle ASF, ASR, ACQ, RHB, RLB, ASF, one place at a time, or by reset (R11). -/
def Obligations.FrameStateFollowsTheCycle : Prop :=
  ∀ (s t : State), step s = .next t → ¬resetNext s → t.engine.fs ≠ s.engine.fs →
    (s.engine.fs = .asf ∧ t.engine.fs = .asr) ∨ (s.engine.fs = .asr ∧ t.engine.fs = .acq) ∨
    (s.engine.fs = .acq ∧ t.engine.fs = .rhb) ∨ (s.engine.fs = .rhb ∧ t.engine.fs = .rlb) ∨
    (s.engine.fs = .rlb ∧ t.engine.fs = .asf)

/-- Nothing but reset, and the SAMP event that uses up the cursor of a low byte, brings FrameState back to ASF (R121). -/
def Obligations.OnlyLastSampleReturnsToAsf : Prop :=
  ∀ (s t : State), step s = .next t → ¬resetNext s → s.engine.fs ≠ .asf → t.engine.fs = .asf →
    s.engine.fs = .rlb ∧ s.engine.cur.toNat ≤ 1 ∧ t.engine.cur = 9 ∧ t.cmds = [.stopPeriodic, .clearCount]

/-- Layer 1 is a function of the engine's state and the event: what an operation does to the engine, the commands it issues
and the byte it returns do not depend on the collaborators, the inputs, or anything else (R6). -/
def Obligations.EngineIsIndependentOfEnvironment : Prop :=
  ∀ (i : Instr) (s s' : State), s.engine = s'.engine → s.tw = s'.tw →
    ∃ t t', exec i s = .next t ∧ exec i s' = .next t' ∧ layer1View t = layer1View t'

/-! ### Laws of traces -/

/-- The assembly law: from ACQ, any trace that begins with an EDGE, takes 19 samples, and ends with the last of them, ends in
ASF with the first eight samples or-ed into `hi` and samples 11 to 18 or-ed into `lo`, most significant first. Extra EDGE
events and reads change nothing (R76, R45, R46). -/
def Obligations.SamplesAssembleIntoBytes : Prop :=
  ∀ (s : State) (n : Nat) (mid : List Event) (b : Bool) (rest : List Input),
    s.engine.fs = .acq → spelled s.tw (.edge n :: (mid ++ [.samp b])) → facing s (.edge n :: (mid ++ [.samp b])) rest →
    sampleCount (mid ++ [.samp b]) = 19 →
    ∃ t, runSteps (mid.length + 2) s = .next t ∧ t.inputs = rest ∧ t.engine.fs = .asf ∧ t.engine.cur = 9 ∧
      t.engine.strobe = s.engine.strobe ∧ t.engine.out = s.engine.out ∧
      ∀ k, k < 8 →
        t.engine.hi.getLsbD k = (s.engine.hi.getLsbD k || (sampleLevels (mid ++ [.samp b])).getD (7 - k) false) ∧
        t.engine.lo.getLsbD k = (s.engine.lo.getLsbD k || (sampleLevels (mid ++ [.samp b])).getD (17 - k) false)

/-- A frame's bytes are what the consumer reads one frame later: from ASF, any whole frame, then the next start edge, then
RDHI and RDLO return exactly the two data bytes, whatever the parity and placeholder samples were and whatever the
accumulators and the buffer held before (R46, R61, R86). -/
def Obligations.FrameIsReadBackAfterNextStart : Prop :=
  ∀ (s : State) (n m : Nat) (vh vl : Byte) (ph x pl : Bool) (rest : List Input),
    s.engine.fs = .asf → spelled s.tw (frame n vh ph x vl pl ++ .edge m :: rd16) →
    facing s (frame n vh ph x vl pl ++ .edge m :: rd16) rest →
    (∃ u, runSteps 40 s = .next u ∧ u.engine.fs = .asf ∧ u.engine.strobe = n ∧ u.engine.hi = vh ∧ u.engine.lo = vl ∧
      readCell u.engine.out 0 = s.engine.hi ∧ readCell u.engine.out 1 = s.engine.lo) ∧
    ∃ t, runSteps 43 s = .next t ∧ t.engine.fs = .asr ∧ t.results = s.results ++ [vh, vl] ∧ t.inputs = rest

/-- Counting only SAMP events: from RLB with cursor c the engine reaches ASF with the c-th sample and not before; from RHB
with cursor c with the (c + 10)-th and not before; EDGE events and reads do not change the counts (R134). -/
def Obligations.BytesEndAfterTheirSamples : Prop :=
  ∀ (s : State) (es : List Event) (rest : List Input), 1 ≤ s.engine.cur.toNat → spelled s.tw es → facing s es rest →
    (s.engine.fs = .rlb → sampleCount es < s.engine.cur.toNat →
      ∃ t, runSteps es.length s = .next t ∧ t.engine.fs = .rlb ∧ t.engine.cur.toNat = s.engine.cur.toNat - sampleCount es) ∧
    (s.engine.fs = .rlb → sampleCount es = s.engine.cur.toNat → (∃ b, es.getLast? = some (.samp b)) →
      ∃ t, runSteps es.length s = .next t ∧ t.engine.fs = .asf ∧ t.engine.cur = 9) ∧
    (s.engine.fs = .rhb → sampleCount es < s.engine.cur.toNat + 10 →
      ∃ t, runSteps es.length s = .next t ∧ insideByte t.engine.fs = true) ∧
    (s.engine.fs = .rhb → sampleCount es = s.engine.cur.toNat + 10 → (∃ b, es.getLast? = some (.samp b)) →
      ∃ t, runSteps es.length s = .next t ∧ t.engine.fs = .asf ∧ t.engine.cur = 9)

/-- The torn read: with an EDGE.ASF between the consumer's two reads, in either order, the first byte is the old publish's
and the second the new one's (R41, R124). -/
def Obligations.ReadAcrossPublishIsTorn : Prop :=
  ∀ (s : State) (n : Nat) (rest : List Input), s.engine.fs = .asf → spelled s.tw [.edge n] →
    (facing s [.rdhi, .edge n, .rdlo] rest → ∃ t, runSteps 3 s = .next t ∧ t.inputs = rest ∧
      t.results = s.results ++ [readCell s.engine.out 0, s.engine.lo]) ∧
    (facing s [.rdlo, .edge n, .rdhi] rest → ∃ t, runSteps 3 s = .next t ∧ t.inputs = rest ∧
      t.results = s.results ++ [readCell s.engine.out 1, s.engine.hi])

/-- The sample is taken exactly `strobe` ticks after the window was armed, at the level of that tick, and not before, if no
falling edge comes in between (R67, R100, R107). -/
def Obligations.SampleComesOnePeriodLater : Prop :=
  ∀ (s : State) (lines : List Bool) (rest : List Input), interruptPending s = false → s.env.tmode = .periodic →
    s.env.tper = lines.length → s.env.tcnt = 0 → 1 ≤ lines.length → lines.length < 2 ^ s.tw →
    s.env.edgesel = .falling → (s.env.linePrev :: lines).IsChain (fun a b => (a && !b) = false) →
    s.inputs = lines.map Input.tick ++ rest →
    (∀ k, k < lines.length → ∃ u, runSteps k s = .next u ∧ interruptPending u = false) ∧
    ∃ u, runSteps lines.length s = .next u ∧ u.engine = s.engine ∧ u.inputs = rest ∧
      u.time = s.time + lines.length ∧ u.env.cmPend = true ∧ u.env.edgePend = false ∧
      step u = exec (operationOf s.engine.fs (.samp (lines.getLastD false)))
        { u with env := { u.env with cmPend := false } }

/-- The strobe is the number of ticks that the start bit stays low, modulo `2^TW`: from ASR, with the timer running from 0, a
low phase of `d + 1` ticks and then the rising edge (R62, R102, R129). -/
def Obligations.StrobeMeasuresLowPhase : Prop :=
  ∀ (s : State) (d : Nat) (rest : List Input), interruptPending s = false → s.engine.fs = .asr →
    s.env.tmode = .freeRunning → s.env.tcnt = 0 → s.env.edgesel = .rising → s.env.lirqEn = true →
    s.env.linePrev = false → s.inputs = List.replicate d (.tick false) ++ .tick true :: rest →
    ∃ t, runSteps (d + 2) s = .next t ∧ t.engine.fs = .acq ∧ t.engine.strobe = (d + 1) % 2 ^ s.tw ∧
      t.inputs = rest ∧ t.env.tmode = .stopped ∧ t.env.edgesel = .falling
end

