-- ==== Sys2Proof/Laws/Encoding.lean ====
section
/-! SUPPORT. The fields of a dispatch word, and the tables of codes. -/

namespace Sys2Proof

@[simp] theorem frameOfCode_frameCode (fs : FrameState) : frameOfCode (frameCode fs) = some fs := by cases fs <;> rfl

theorem frameCode_le (fs : FrameState) : frameCode fs ≤ 4 := by cases fs <;> decide

/-- What a code stands for, once: one of the five names, or nothing (R47). -/
theorem frameOfCode_eq_some {n : Nat} {fs : FrameState} (h : frameOfCode n = some fs) : n = frameCode fs := by
  rcases n with _ | _ | _ | _ | _ | n <;> simp [frameOfCode] at h <;> subst h <;> rfl

theorem frameOfCode_eq_none {n : Nat} : frameOfCode n = none ↔ 5 ≤ n := by
  rcases n with _ | _ | _ | _ | _ | n <;> simp [frameOfCode]

@[simp] theorem operationOf_frame_event (i : Instr) : operationOf i.frame i.event = i := by
  cases i <;> first | rfl | (rename_i fs; cases fs <;> rfl)

@[simp] theorem frame_operationOf (fs : FrameState) (e : Event) : (operationOf fs e).frame = fs := by
  cases fs <;> cases e <;> rfl

@[simp] theorem event_operationOf (fs : FrameState) (e : Event) : (operationOf fs e).event = e := by
  cases fs <;> cases e <;> rfl

/-- The three fields of a word that is put together from three fields (R51). -/
theorem argField_of_parts {tw : Nat} (f k a : Nat) (ha : a < 2 ^ tw) :
    argField tw (f * (4 * 2 ^ tw) + (k * 2 ^ tw + a)) = a := by
  have h : f * (4 * 2 ^ tw) + (k * 2 ^ tw + a) = a + 2 ^ tw * (f * 4 + k) := by ring
  rw [argField, h, Nat.add_mul_mod_self_left, Nat.mod_eq_of_lt ha]

theorem quotient_of_parts {tw : Nat} (f k a : Nat) (ha : a < 2 ^ tw) :
    (f * (4 * 2 ^ tw) + (k * 2 ^ tw + a)) / 2 ^ tw = f * 4 + k := by
  have h : f * (4 * 2 ^ tw) + (k * 2 ^ tw + a) = a + 2 ^ tw * (f * 4 + k) := by ring
  rw [h, Nat.add_mul_div_left _ _ (Nat.two_pow_pos tw), Nat.div_eq_of_lt ha, Nat.zero_add]

theorem kindField_of_parts {tw : Nat} (f k a : Nat) (ha : a < 2 ^ tw) (hk : k < 4) :
    kindField tw (f * (4 * 2 ^ tw) + (k * 2 ^ tw + a)) = k := by
  rw [kindField, quotient_of_parts f k a ha]; omega

theorem frameField_of_parts {tw : Nat} (f k a : Nat) (ha : a < 2 ^ tw) (hk : k < 4) :
    frameField tw (f * (4 * 2 ^ tw) + (k * 2 ^ tw + a)) = f := by
  rw [frameField, quotient_of_parts f k a ha]; omega

/-- Every word is put together from its three fields (R51). -/
theorem parts_of_word (tw w : Nat) :
    frameField tw w * (4 * 2 ^ tw) + (kindField tw w * 2 ^ tw + argField tw w) = w := by
  have h1 := Nat.div_add_mod w (2 ^ tw)
  have h2 := Nat.div_add_mod (w / 2 ^ tw) 4
  simp only [frameField, kindField, argField]
  calc _ = 2 ^ tw * (4 * (w / 2 ^ tw / 4) + w / 2 ^ tw % 4) + w % 2 ^ tw := by ring
    _ = w := by rw [h2, h1]

/-- The argument and the kind of a well-formed event fit their fields (R51). -/
theorem eventArg_lt {tw : Nat} {e : Event} (h : e.wf tw = true) : eventArg e < 2 ^ tw := by
  have two : ∀ n, 1 ≤ n → 2 ≤ 2 ^ n := fun n hn => by
    calc 2 = 2 ^ 1 := rfl
      _ ≤ 2 ^ n := Nat.pow_le_pow_right (by decide) hn
  cases e with
  | edge n => simp [Event.wf] at h; exact h.2
  | samp l => simp [Event.wf] at h; have := two tw h; have := l.toNat_lt; simp only [eventArg]; omega
  | rdhi => exact Nat.two_pow_pos tw
  | rdlo => simp [Event.wf] at h; have := two tw h; simp only [eventArg]; omega

theorem eventKind_lt (e : Event) : eventKind e < 3 := by cases e <;> simp [eventKind]

theorem eventWord_lt {tw : Nat} {e : Event} (h : e.wf tw = true) : eventWord tw e < 4 * 2 ^ tw := by
  have ha := eventArg_lt h
  have hk := eventKind_lt e
  have hm : eventKind e * 2 ^ tw ≤ 2 * 2 ^ tw := Nat.mul_le_mul_right _ (by omega)
  unfold eventWord
  omega

end Sys2Proof
end

