-- ==== Sys2Proof/Laws/Memory.lean ====
section
/-! SUPPORT. The buffer: a read after a write, and every write keeps the canonical form. -/

namespace Sys2Proof.Machine

@[simp] theorem readCell_nil (a : Nat) : readCell [] a = unlistedByte := rfl

theorem readCell_cons (i : Nat) (b : Byte) (m : Memory) (a : Nat) :
    readCell ((i, b) :: m) a = if i = a then b else readCell m a := rfl

@[simp] theorem readCell_eraseCell_same (m : Memory) (a : Nat) : readCell (eraseCell a m) a = unlistedByte := by
  induction m with
  | nil => rfl
  | cons e m ih =>
    obtain ⟨i, b⟩ := e
    simp only [eraseCell]
    split
    · exact ih
    · rename_i h; simp only [readCell_cons, if_neg h, ih]

theorem readCell_eraseCell_other (m : Memory) {a k : Nat} (h : k ≠ a) : readCell (eraseCell a m) k = readCell m k := by
  induction m with
  | nil => rfl
  | cons e m ih =>
    obtain ⟨i, b⟩ := e
    simp only [eraseCell]
    split
    · rename_i hi; subst hi; rw [ih, readCell_cons, if_neg (Ne.symm h)]
    · simp only [readCell_cons, ih]

theorem readCell_insertCell_same (m : Memory) (a : Nat) (b : Byte) :
    readCell (insertCell a b (eraseCell a m)) a = b := by
  induction m with
  | nil => simp [eraseCell, insertCell, readCell]
  | cons e m ih =>
    obtain ⟨i, c⟩ := e
    simp only [eraseCell]
    split
    · exact ih
    · rename_i hi
      simp only [insertCell]
      split
      · simp [readCell]
      · simp only [readCell_cons, if_neg hi, ih]

theorem readCell_insertCell_other (m : Memory) (b : Byte) {a k : Nat} (h : k ≠ a) :
    readCell (insertCell a b m) k = readCell m k := by
  induction m with
  | nil => simp [insertCell, readCell, Ne.symm h]
  | cons e m ih =>
    obtain ⟨i, c⟩ := e
    simp only [insertCell]
    split
    · rw [readCell_cons, if_neg (Ne.symm h)]
    · simp only [readCell_cons, ih]

/-- A read after a write to the same cell gives the byte written. -/
@[simp] theorem readCell_writeCell_same (m : Memory) (a : Nat) (b : Byte) : readCell (writeCell m a b) a = b := by
  unfold writeCell
  split
  · rename_i h; rw [readCell_eraseCell_same, h]
  · exact readCell_insertCell_same m a b

/-- A write leaves every other cell alone. -/
theorem readCell_writeCell_other (m : Memory) (b : Byte) {a k : Nat} (h : k ≠ a) :
    readCell (writeCell m a b) k = readCell m k := by
  unfold writeCell
  split
  · exact readCell_eraseCell_other m h
  · rw [readCell_insertCell_other _ b h, readCell_eraseCell_other m h]

theorem canonicalFrom_cons (n i : Nat) (b : Byte) (m : Memory) :
    canonicalFrom n ((i, b) :: m) = true ↔ n ≤ i ∧ i < 2 ∧ b ≠ unlistedByte ∧ canonicalFrom (i + 1) m = true := by
  simp [canonicalFrom, and_assoc]

theorem canonicalFrom_mono {n k : Nat} (h : k ≤ n) (m : Memory) (hm : canonicalFrom n m = true) :
    canonicalFrom k m = true := by
  cases m with
  | nil => rfl
  | cons e m =>
    obtain ⟨i, b⟩ := e
    rw [canonicalFrom_cons] at hm ⊢
    exact ⟨Nat.le_trans h hm.1, hm.2⟩

theorem canonicalFrom_eraseCell (m : Memory) (a n : Nat) (hm : canonicalFrom n m = true) :
    canonicalFrom n (eraseCell a m) = true := by
  induction m generalizing n with
  | nil => rfl
  | cons e m ih =>
    obtain ⟨i, b⟩ := e
    rw [canonicalFrom_cons] at hm
    simp only [eraseCell]
    split
    · exact canonicalFrom_mono (by omega) _ (ih (i + 1) hm.2.2.2)
    · rw [canonicalFrom_cons]
      exact ⟨hm.1, hm.2.1, hm.2.2.1, ih (i + 1) hm.2.2.2⟩

theorem canonicalFrom_insertCell (m : Memory) (a n : Nat) (b : Byte) (hn : n ≤ a) (ha : a < 2) (hb : b ≠ unlistedByte)
    (hm : canonicalFrom n (eraseCell a m) = true) : canonicalFrom n (insertCell a b (eraseCell a m)) = true := by
  induction m generalizing n with
  | nil => exact (canonicalFrom_cons n a b []).mpr ⟨hn, ha, hb, rfl⟩
  | cons e m ih =>
    obtain ⟨i, c⟩ := e
    simp only [eraseCell] at hm ⊢
    split at hm
    · rename_i h; rw [if_pos h]; exact ih n hn hm
    · rename_i h
      rw [if_neg h]
      rw [canonicalFrom_cons] at hm
      simp only [insertCell]
      split
      · rw [canonicalFrom_cons, canonicalFrom_cons]
        exact ⟨hn, ha, hb, by omega, hm.2⟩
      · rw [canonicalFrom_cons]
        exact ⟨hm.1, hm.2.1, hm.2.2.1, ih (i + 1) (by omega) hm.2.2.2⟩

/-- A write to one of the two cells keeps the canonical form. -/
theorem wf_writeCell (m : Memory) (a : Nat) (b : Byte) (ha : a < 2) (hm : Memory.wf m = true) :
    Memory.wf (writeCell m a b) = true := by
  have he := canonicalFrom_eraseCell m a 0 hm
  unfold writeCell
  split
  · exact he
  · rename_i hb; exact canonicalFrom_insertCell m a 0 b (Nat.zero_le a) ha hb he

/-- Every cell is one of the two of the address space (R30). -/
theorem index_lt_two (c : BufferCell) : c.index < 2 := by cases c <;> decide

/-- The reset buffer has the canonical form. -/
theorem wf_nil : Memory.wf [] = true := rfl

end Sys2Proof.Machine
end

