-- ==== Sys2Proof/Laws/State.lean ====
section
/-! SUPPORT. One lemma per field of the state per update of it, each true by rfl, so that no proof unfolds a record update. -/

namespace Sys2Proof.Machine

@[simp] theorem beginOperation_tw (s : State) : (beginOperation s).tw = s.tw := rfl
@[simp] theorem beginOperation_engine (s : State) : (beginOperation s).engine = s.engine := rfl
@[simp] theorem beginOperation_env (s : State) : (beginOperation s).env = s.env := rfl
@[simp] theorem beginOperation_cmds (s : State) : (beginOperation s).cmds = [] := rfl
@[simp] theorem beginOperation_rdData (s : State) : (beginOperation s).rdData = none := rfl
@[simp] theorem beginOperation_results (s : State) : (beginOperation s).results = s.results := rfl
@[simp] theorem beginOperation_inputs (s : State) : (beginOperation s).inputs = s.inputs := rfl
@[simp] theorem beginOperation_time (s : State) : (beginOperation s).time = s.time := rfl
@[simp] theorem beginOperation_draws (s : State) : (beginOperation s).draws = s.draws := rfl

@[simp] theorem writeFs_tw (fs : FrameState) (s : State) : (writeFs fs s).tw = s.tw := rfl
@[simp] theorem writeFs_engine (fs : FrameState) (s : State) : (writeFs fs s).engine = { s.engine with fs := fs } := rfl
@[simp] theorem writeFs_env (fs : FrameState) (s : State) : (writeFs fs s).env = s.env := rfl
@[simp] theorem writeFs_cmds (fs : FrameState) (s : State) : (writeFs fs s).cmds = s.cmds := rfl
@[simp] theorem writeFs_rdData (fs : FrameState) (s : State) : (writeFs fs s).rdData = s.rdData := rfl
@[simp] theorem writeFs_results (fs : FrameState) (s : State) : (writeFs fs s).results = s.results := rfl
@[simp] theorem writeFs_inputs (fs : FrameState) (s : State) : (writeFs fs s).inputs = s.inputs := rfl
@[simp] theorem writeFs_time (fs : FrameState) (s : State) : (writeFs fs s).time = s.time := rfl
@[simp] theorem writeFs_draws (fs : FrameState) (s : State) : (writeFs fs s).draws = s.draws := rfl

@[simp] theorem writeStrobe_tw (v : Nat) (s : State) : (writeStrobe v s).tw = s.tw := rfl
@[simp] theorem writeStrobe_engine (v : Nat) (s : State) : (writeStrobe v s).engine = { s.engine with strobe := truncTW s.tw v } := rfl
@[simp] theorem writeStrobe_env (v : Nat) (s : State) : (writeStrobe v s).env = s.env := rfl
@[simp] theorem writeStrobe_cmds (v : Nat) (s : State) : (writeStrobe v s).cmds = s.cmds := rfl
@[simp] theorem writeStrobe_rdData (v : Nat) (s : State) : (writeStrobe v s).rdData = s.rdData := rfl
@[simp] theorem writeStrobe_results (v : Nat) (s : State) : (writeStrobe v s).results = s.results := rfl
@[simp] theorem writeStrobe_inputs (v : Nat) (s : State) : (writeStrobe v s).inputs = s.inputs := rfl
@[simp] theorem writeStrobe_time (v : Nat) (s : State) : (writeStrobe v s).time = s.time := rfl
@[simp] theorem writeStrobe_draws (v : Nat) (s : State) : (writeStrobe v s).draws = s.draws := rfl

@[simp] theorem writeCur_tw (v : Cursor) (s : State) : (writeCur v s).tw = s.tw := rfl
@[simp] theorem writeCur_engine (v : Cursor) (s : State) : (writeCur v s).engine = { s.engine with cur := v } := rfl
@[simp] theorem writeCur_env (v : Cursor) (s : State) : (writeCur v s).env = s.env := rfl
@[simp] theorem writeCur_cmds (v : Cursor) (s : State) : (writeCur v s).cmds = s.cmds := rfl
@[simp] theorem writeCur_rdData (v : Cursor) (s : State) : (writeCur v s).rdData = s.rdData := rfl
@[simp] theorem writeCur_results (v : Cursor) (s : State) : (writeCur v s).results = s.results := rfl
@[simp] theorem writeCur_inputs (v : Cursor) (s : State) : (writeCur v s).inputs = s.inputs := rfl
@[simp] theorem writeCur_time (v : Cursor) (s : State) : (writeCur v s).time = s.time := rfl
@[simp] theorem writeCur_draws (v : Cursor) (s : State) : (writeCur v s).draws = s.draws := rfl

@[simp] theorem writeHi_tw (v : Byte) (s : State) : (writeHi v s).tw = s.tw := rfl
@[simp] theorem writeHi_engine (v : Byte) (s : State) : (writeHi v s).engine = { s.engine with hi := v } := rfl
@[simp] theorem writeHi_env (v : Byte) (s : State) : (writeHi v s).env = s.env := rfl
@[simp] theorem writeHi_cmds (v : Byte) (s : State) : (writeHi v s).cmds = s.cmds := rfl
@[simp] theorem writeHi_rdData (v : Byte) (s : State) : (writeHi v s).rdData = s.rdData := rfl
@[simp] theorem writeHi_results (v : Byte) (s : State) : (writeHi v s).results = s.results := rfl
@[simp] theorem writeHi_inputs (v : Byte) (s : State) : (writeHi v s).inputs = s.inputs := rfl
@[simp] theorem writeHi_time (v : Byte) (s : State) : (writeHi v s).time = s.time := rfl
@[simp] theorem writeHi_draws (v : Byte) (s : State) : (writeHi v s).draws = s.draws := rfl

@[simp] theorem writeLo_tw (v : Byte) (s : State) : (writeLo v s).tw = s.tw := rfl
@[simp] theorem writeLo_engine (v : Byte) (s : State) : (writeLo v s).engine = { s.engine with lo := v } := rfl
@[simp] theorem writeLo_env (v : Byte) (s : State) : (writeLo v s).env = s.env := rfl
@[simp] theorem writeLo_cmds (v : Byte) (s : State) : (writeLo v s).cmds = s.cmds := rfl
@[simp] theorem writeLo_rdData (v : Byte) (s : State) : (writeLo v s).rdData = s.rdData := rfl
@[simp] theorem writeLo_results (v : Byte) (s : State) : (writeLo v s).results = s.results := rfl
@[simp] theorem writeLo_inputs (v : Byte) (s : State) : (writeLo v s).inputs = s.inputs := rfl
@[simp] theorem writeLo_time (v : Byte) (s : State) : (writeLo v s).time = s.time := rfl
@[simp] theorem writeLo_draws (v : Byte) (s : State) : (writeLo v s).draws = s.draws := rfl

@[simp] theorem memWrite_tw (c : BufferCell) (v : Byte) (s : State) : (memWrite c v s).tw = s.tw := rfl
@[simp] theorem memWrite_engine (c : BufferCell) (v : Byte) (s : State) : (memWrite c v s).engine = { s.engine with out := writeCell s.engine.out c.index v } := rfl
@[simp] theorem memWrite_env (c : BufferCell) (v : Byte) (s : State) : (memWrite c v s).env = s.env := rfl
@[simp] theorem memWrite_cmds (c : BufferCell) (v : Byte) (s : State) : (memWrite c v s).cmds = s.cmds := rfl
@[simp] theorem memWrite_rdData (c : BufferCell) (v : Byte) (s : State) : (memWrite c v s).rdData = s.rdData := rfl
@[simp] theorem memWrite_results (c : BufferCell) (v : Byte) (s : State) : (memWrite c v s).results = s.results := rfl
@[simp] theorem memWrite_inputs (c : BufferCell) (v : Byte) (s : State) : (memWrite c v s).inputs = s.inputs := rfl
@[simp] theorem memWrite_time (c : BufferCell) (v : Byte) (s : State) : (memWrite c v s).time = s.time := rfl
@[simp] theorem memWrite_draws (c : BufferCell) (v : Byte) (s : State) : (memWrite c v s).draws = s.draws := rfl

@[simp] theorem issue_tw (c : Command) (s : State) : (issue c s).tw = s.tw := rfl
@[simp] theorem issue_engine (c : Command) (s : State) : (issue c s).engine = s.engine := rfl
@[simp] theorem issue_env (c : Command) (s : State) : (issue c s).env = applyCommand s.tw c s.env := rfl
@[simp] theorem issue_cmds (c : Command) (s : State) : (issue c s).cmds = s.cmds ++ [c] := rfl
@[simp] theorem issue_rdData (c : Command) (s : State) : (issue c s).rdData = s.rdData := rfl
@[simp] theorem issue_results (c : Command) (s : State) : (issue c s).results = s.results := rfl
@[simp] theorem issue_inputs (c : Command) (s : State) : (issue c s).inputs = s.inputs := rfl
@[simp] theorem issue_time (c : Command) (s : State) : (issue c s).time = s.time := rfl
@[simp] theorem issue_draws (c : Command) (s : State) : (issue c s).draws = s.draws := rfl

@[simp] theorem returnByte_tw (b : Byte) (s : State) : (returnByte b s).tw = s.tw := rfl
@[simp] theorem returnByte_engine (b : Byte) (s : State) : (returnByte b s).engine = s.engine := rfl
@[simp] theorem returnByte_env (b : Byte) (s : State) : (returnByte b s).env = s.env := rfl
@[simp] theorem returnByte_cmds (b : Byte) (s : State) : (returnByte b s).cmds = s.cmds := rfl
@[simp] theorem returnByte_rdData (b : Byte) (s : State) : (returnByte b s).rdData = some b := rfl
@[simp] theorem returnByte_results (b : Byte) (s : State) : (returnByte b s).results = s.results ++ [b] := rfl
@[simp] theorem returnByte_inputs (b : Byte) (s : State) : (returnByte b s).inputs = s.inputs := rfl
@[simp] theorem returnByte_time (b : Byte) (s : State) : (returnByte b s).time = s.time := rfl
@[simp] theorem returnByte_draws (b : Byte) (s : State) : (returnByte b s).draws = s.draws := rfl

@[simp] theorem applyReset_tw (s : State) : (applyReset s).tw = s.tw := rfl
@[simp] theorem applyReset_engine (s : State) : (applyReset s).engine = EngineState.reset := rfl
@[simp] theorem applyReset_env (s : State) : (applyReset s).env = EnvState.reset := rfl
@[simp] theorem applyReset_cmds (s : State) : (applyReset s).cmds = [] := rfl
@[simp] theorem applyReset_rdData (s : State) : (applyReset s).rdData = none := rfl
@[simp] theorem applyReset_results (s : State) : (applyReset s).results = s.results := rfl
@[simp] theorem applyReset_inputs (s : State) : (applyReset s).inputs = s.inputs := rfl
@[simp] theorem applyReset_time (s : State) : (applyReset s).time = s.time := rfl
@[simp] theorem applyReset_draws (s : State) : (applyReset s).draws = s.draws := rfl

@[simp] theorem clearEdgePend_tw (s : State) : (clearEdgePend s).tw = s.tw := rfl
@[simp] theorem clearEdgePend_engine (s : State) : (clearEdgePend s).engine = s.engine := rfl
@[simp] theorem clearEdgePend_env (s : State) : (clearEdgePend s).env = { s.env with edgePend := false } := rfl
@[simp] theorem clearEdgePend_cmds (s : State) : (clearEdgePend s).cmds = s.cmds := rfl
@[simp] theorem clearEdgePend_rdData (s : State) : (clearEdgePend s).rdData = s.rdData := rfl
@[simp] theorem clearEdgePend_results (s : State) : (clearEdgePend s).results = s.results := rfl
@[simp] theorem clearEdgePend_inputs (s : State) : (clearEdgePend s).inputs = s.inputs := rfl
@[simp] theorem clearEdgePend_time (s : State) : (clearEdgePend s).time = s.time := rfl
@[simp] theorem clearEdgePend_draws (s : State) : (clearEdgePend s).draws = s.draws := rfl

@[simp] theorem clearCmPend_tw (s : State) : (clearCmPend s).tw = s.tw := rfl
@[simp] theorem clearCmPend_engine (s : State) : (clearCmPend s).engine = s.engine := rfl
@[simp] theorem clearCmPend_env (s : State) : (clearCmPend s).env = { s.env with cmPend := false } := rfl
@[simp] theorem clearCmPend_cmds (s : State) : (clearCmPend s).cmds = s.cmds := rfl
@[simp] theorem clearCmPend_rdData (s : State) : (clearCmPend s).rdData = s.rdData := rfl
@[simp] theorem clearCmPend_results (s : State) : (clearCmPend s).results = s.results := rfl
@[simp] theorem clearCmPend_inputs (s : State) : (clearCmPend s).inputs = s.inputs := rfl
@[simp] theorem clearCmPend_time (s : State) : (clearCmPend s).time = s.time := rfl
@[simp] theorem clearCmPend_draws (s : State) : (clearCmPend s).draws = s.draws := rfl

@[simp] theorem drawOrder_tw (s : State) : (drawOrder s).tw = s.tw := rfl
@[simp] theorem drawOrder_engine (s : State) : (drawOrder s).engine = s.engine := rfl
@[simp] theorem drawOrder_env (s : State) : (drawOrder s).env = s.env := rfl
@[simp] theorem drawOrder_cmds (s : State) : (drawOrder s).cmds = s.cmds := rfl
@[simp] theorem drawOrder_rdData (s : State) : (drawOrder s).rdData = s.rdData := rfl
@[simp] theorem drawOrder_results (s : State) : (drawOrder s).results = s.results := rfl
@[simp] theorem drawOrder_inputs (s : State) : (drawOrder s).inputs = s.inputs := rfl
@[simp] theorem drawOrder_time (s : State) : (drawOrder s).time = s.time := rfl
@[simp] theorem drawOrder_draws (s : State) : (drawOrder s).draws = s.draws + 1 := rfl

end Sys2Proof.Machine
end

