-- ==== Sys2Proof/Laws/Ops.lean ====
section
/-! SUPPORT. For each shared operation, once, everything it can do; callers cite these and unfold nothing. -/

namespace Sys2Proof.Machine

/-! ### Operands and conditions -/

theorem truncTW_lt (tw v : Nat) : truncTW tw v < 2 ^ tw := Nat.mod_lt _ (Nat.two_pow_pos tw)

theorem truncTW_of_lt {tw v : Nat} (h : v < 2 ^ tw) : truncTW tw v = v := Nat.mod_eq_of_lt h

/-- The bits of `setbit`: it only ever sets bit `k`, and none when `k >= 8` (R74). -/
theorem setbit_getLsbD (v : Byte) (k j : Nat) :
    (setbit v k).getLsbD j = (v.getLsbD j || (decide (k ≤ 7) && decide (j = k))) := by
  unfold setbit
  split
  · rename_i h
    rw [BitVec.getLsbD_or]
    congr 1
    rw [BitVec.getLsbD_shiftLeft]
    by_cases hj : j < k
    · have : j ≠ k := by omega
      simp [hj, this]
    · by_cases hk : j = k
      · subst hk; simp [h]; omega
      · have h1 : ¬(j - k = 0) := by omega
        simp [hk, h, BitVec.getLsbD_one, h1]
  · rename_i h; simp [h]

/-- The guarded decrement is the truncated subtraction of 1 (R75). -/
theorem countSample_toNat (c : Cursor) : (countSample c).toNat = c.toNat - 1 := by revert c; decide

/-! ### Commands -/

/-- No command sets or clears a latch, and none touches the recorded line level (R92, R93, R106). -/
theorem applyCommand_latches (tw : Nat) (c : Command) (e : EnvState) :
    (applyCommand tw c e).edgePend = e.edgePend ∧ (applyCommand tw c e).cmPend = e.cmPend ∧
      (applyCommand tw c e).linePrev = e.linePrev := by
  cases c <;> exact ⟨rfl, rfl, rfl⟩

@[simp] theorem applyCommand_edgePend (tw : Nat) (c : Command) (e : EnvState) :
    (applyCommand tw c e).edgePend = e.edgePend := (applyCommand_latches tw c e).1

@[simp] theorem applyCommand_cmPend (tw : Nat) (c : Command) (e : EnvState) :
    (applyCommand tw c e).cmPend = e.cmPend := (applyCommand_latches tw c e).2.1

@[simp] theorem applyCommand_linePrev (tw : Nat) (c : Command) (e : EnvState) :
    (applyCommand tw c e).linePrev = e.linePrev := (applyCommand_latches tw c e).2.2

/-- The commands keep every value of `TW` bits within its width. -/
theorem applyCommand_widths (tw : Nat) (c : Command) (e : EnvState) (hp : e.tper < 2 ^ tw) (hc : e.tcnt < 2 ^ tw) :
    (applyCommand tw c e).tper < 2 ^ tw ∧ (applyCommand tw c e).tcnt < 2 ^ tw := by
  cases c <;> first | exact ⟨hp, hc⟩ | exact ⟨truncTW_lt _ _, hc⟩ | exact ⟨hp, Nat.two_pow_pos tw⟩

/-- What arming a sample window does (R63 to R65). -/
theorem armWindow_eq (s : State) : armWindow s =
    { s with cmds := s.cmds ++ [.clearCount, .startPeriodic s.engine.strobe],
             env := { s.env with tcnt := 0, tper := truncTW s.tw s.engine.strobe, tmode := .periodic } } := by
  simp [armWindow, issue, applyCommand]

/-- What the entry of the Sample-Timer Handler does (R70). -/
theorem sampleEntry_eq (s : State) : sampleEntry s =
    { s with cmds := s.cmds ++ [.stopPeriodic, .clearCount], env := { s.env with tmode := .stopped, tcnt := 0 } } := by
  simp [sampleEntry, issue, applyCommand]

/-- What the publish does: the buffer alone changes, and by two cells (R61). -/
theorem publish_eq (s : State) : publish s =
    { s with engine := { s.engine with out := writeCell (writeCell s.engine.out 0 s.engine.hi) 1 s.engine.lo } } := rfl

/-- The published bytes read back; no other index changes (R61, R30). -/
theorem publish_reads (s : State) :
    readCell (publish s).engine.out 0 = s.engine.hi ∧ readCell (publish s).engine.out 1 = s.engine.lo ∧
      ∀ a, a ≠ 0 → a ≠ 1 → readCell (publish s).engine.out a = readCell s.engine.out a := by
  rw [publish_eq]
  refine ⟨?_, readCell_writeCell_same _ _ _, fun a h0 h1 => ?_⟩
  · rw [readCell_writeCell_other _ _ (by decide), readCell_writeCell_same]
  · rw [readCell_writeCell_other _ _ h1, readCell_writeCell_other _ _ h0]

theorem publish_wf (s : State) (h : Memory.wf s.engine.out = true) : Memory.wf (publish s).engine.out = true := by
  rw [publish_eq]
  exact wf_writeCell _ _ _ (by decide) (wf_writeCell _ _ _ (by decide) h)

/-- One sample of the high byte changes at most `hi` (R71). -/
theorem placeHighBit_eq (lvl : Bool) (s : State) : placeHighBit lvl s =
    State.mk s.tw { s.engine with
      hi := bif setsHighBit lvl s.engine.cur then setbit s.engine.hi (bitIndex s.engine.cur) else s.engine.hi }
      s.env s.cmds s.rdData s.results s.inputs s.time s.draws := by
  unfold placeHighBit; cases setsHighBit lvl s.engine.cur <;> rfl

/-- One sample of the low byte changes at most `lo` (R72). -/
theorem placeLowBit_eq (lvl : Bool) (s : State) : placeLowBit lvl s =
    State.mk s.tw { s.engine with
      lo := bif setsLowBit lvl s.engine.cur then setbit s.engine.lo (bitIndex s.engine.cur) else s.engine.lo }
      s.env s.cmds s.rdData s.results s.inputs s.time s.draws := by
  unfold placeLowBit; cases setsLowBit lvl s.engine.cur <;> rfl

/-- The end of a byte changes at most `fs` and `cur` (R71, R72). -/
theorem endOfByte_eq (fs : FrameState) (budget : Cursor) (s : State) : endOfByte fs budget s =
    State.mk s.tw { s.engine with
        fs := bif budgetUsed s.engine.cur then fs else s.engine.fs,
        cur := bif budgetUsed s.engine.cur then budget else s.engine.cur }
      s.env s.cmds s.rdData s.results s.inputs s.time s.draws := by
  unfold endOfByte; cases budgetUsed s.engine.cur <;> rfl

/-! ### Exec: every operation succeeds (R90), and none touches what belongs to the run -/

/-- What every operation leaves: a next state with the same `TW`, inputs, time, draws, latches, line level and enable. -/
theorem exec_next (i : Instr) (s : State) : ∃ t, exec i s = .next t ∧ t.tw = s.tw ∧ t.inputs = s.inputs ∧
    t.time = s.time ∧ t.draws = s.draws ∧ t.env.edgePend = s.env.edgePend ∧ t.env.cmPend = s.env.cmPend ∧
    t.env.linePrev = s.env.linePrev ∧ t.env.lirqEn = s.env.lirqEn := by
  cases i <;>
    simp [exec, execEdgeAsf, execEdgeAsr, execEdgeAcq, execEdgeRhb, execEdgeRlb, execSampAsf, execSampAsr, execSampAcq,
      execSampRhb, execSampRlb, execRdhi, execRdlo, armWindow_eq, sampleEntry_eq, publish_eq, placeHighBit_eq,
      placeLowBit_eq, endOfByte_eq, takeSample] <;>
    simp [applyCommand]

/-! ### The timer and the edge detector -/

/-- What a tick of the timer does, mode by mode (R100). -/
theorem timerTick_cases (tw : Nat) (e : EnvState) :
    (e.tmode = .stopped ∧ timerTick tw e = e) ∨
    (e.tmode = .freeRunning ∧ timerTick tw e = { e with tcnt := nextCount tw e }) ∨
    (e.tmode = .periodic ∧ nextCount tw e = e.tper ∧ timerTick tw e = { e with cmPend := true, tcnt := 0 }) ∨
    (e.tmode = .periodic ∧ nextCount tw e ≠ e.tper ∧ timerTick tw e = { e with tcnt := nextCount tw e }) := by
  unfold timerTick
  split
  · rename_i h; exact .inl ⟨h, rfl⟩
  · rename_i h; exact .inr (.inl ⟨h, rfl⟩)
  · rename_i h
    split
    · rename_i h'; exact .inr (.inr (.inl ⟨h, h', rfl⟩))
    · rename_i h'; exact .inr (.inr (.inr ⟨h, h', rfl⟩))

/-! ### Interrupts and steps -/

/-- When the zero-strobe check lets a result through, it is that result. -/
theorem refuseZeroStrobe_next {o : Host.Outcome State Fault Refusal} {t : State} (h : refuseZeroStrobe o = .next t) :
    o = .next t ∧ Command.startPeriodic 0 ∉ t.cmds := by
  cases o with
  | next u =>
    simp only [refuseZeroStrobe] at h
    split at h
    · cases h
    · cases h; exact ⟨rfl, ‹_›⟩
  | fault r => cases h
  | refused r => cases h

/-- What dispatching a latched interrupt can do: it runs one handler, on a state whose latch for it is cleared (R94, R95). -/
theorem dispatchPending_next {s t : State} (h : dispatchPending s = .next t) (hp : interruptPending s = true) :
    ∃ d, (s.env.edgePend = true ∧ exec (operationOf s.engine.fs (.edge s.env.tcnt))
            { clearEdgePend s with draws := d } = .next t) ∨
         (s.env.cmPend = true ∧ exec (operationOf s.engine.fs (.samp s.env.linePrev))
            { clearCmPend s with draws := d } = .next t) := by
  unfold dispatchPending at h
  split at h
  · rename_i hb
    simp only [Bool.and_eq_true] at hb
    split at h
    · exact ⟨s.draws + 1, .inl ⟨hb.1, (refuseZeroStrobe_next h).1⟩⟩
    · exact ⟨s.draws + 1, .inr ⟨hb.2, (refuseZeroStrobe_next h).1⟩⟩
  · split at h
    · rename_i he; exact ⟨s.draws, .inl ⟨he, (refuseZeroStrobe_next h).1⟩⟩
    · rename_i he
      refine ⟨s.draws, .inr ⟨?_, (refuseZeroStrobe_next h).1⟩⟩
      simpa [interruptPending, he] using hp

/-- What a step can do: dispatch a latched interrupt, idle, run an event word, tick, or reset (R5, R94, R107, R111, R120). -/
theorem step_cases {s t : State} (h : step s = .next t) :
    (interruptPending s = true ∧ dispatchPending s = .next t) ∨
    (interruptPending s = false ∧ s.inputs = [] ∧ t = s) ∨
    (interruptPending s = false ∧ ∃ ew rest i, s.inputs = .event ew :: rest ∧ ew < 4 * 2 ^ s.tw ∧
      decode s.tw (dispatchWord s.tw s.engine.fs ew) = .ok i ∧ exec i { s with inputs := rest } = .next t) ∨
    (interruptPending s = false ∧ ∃ line rest, s.inputs = .tick line :: rest ∧ zeroPeriod s.env = false ∧
      t = { s with inputs := rest, time := s.time + 1, env := collaboratorTick s.tw line s.env }) ∨
    (interruptPending s = false ∧ ∃ rest, s.inputs = .rst :: rest ∧ t = applyReset { s with inputs := rest }) := by
  unfold step runNext at h
  split at h
  · exact .inl ⟨‹_›, h⟩
  · rename_i hp
    have hp : interruptPending s = false := by simpa using hp
    right
    split at h
    · rename_i hi; cases h; exact .inl ⟨hp, hi, rfl⟩
    · rename_i input rest hi
      right
      cases input with
      | event ew =>
        simp only [takeInput, runEventWord, decodeEventWord] at h
        split at h
        · rename_i i hd
          split at hd
          · exact .inl ⟨hp, ew, rest, i, hi, ‹_›, hd, h⟩
          · cases hd
        · cases h
      | tick line =>
        simp only [takeInput, runTick] at h
        split at h
        · cases h
        · rename_i hz; cases h
          exact .inr (.inl ⟨hp, line, rest, hi, by simpa using hz, rfl⟩)
      | rst =>
        simp only [takeInput] at h
        cases h
        exact .inr (.inr ⟨hp, rest, hi, rfl⟩)

/-- The model's own run is the host's. -/
theorem runSteps_eq_coreRun (k : Nat) (s : State) : runSteps k s = Host.Core.run Sys2Proof.core k s := by
  induction k generalizing s with
  | zero => rfl
  | succ k ih =>
    simp only [runSteps, Host.Core.run, show Sys2Proof.core.step s = step s from rfl]
    cases step s with
    | next t => exact ih t
    | fault r => rfl
    | refused r => rfl

/-- A step, then the rest of the run. -/
theorem runSteps_succ {k : Nat} {s t : State} (h : step s = .next t) : runSteps (k + 1) s = runSteps k t := by
  simp only [runSteps, h]

/-- A run in two parts. -/
theorem runSteps_add {j k : Nat} {s t : State} (h : runSteps j s = .next t) : runSteps (j + k) s = runSteps k t := by
  induction j generalizing s with
  | zero => cases h; rw [Nat.zero_add]
  | succ j ih =>
    rw [Nat.succ_add]
    cases hs : step s with
    | next u => rw [runSteps_succ hs] at h ⊢; exact ih h
    | fault r => simp [runSteps, hs] at h
    | refused r => simp [runSteps, hs] at h

/-- An operation that a word decodes to is one of the present FrameState's (R52). -/
theorem decode_frame {tw : Nat} {fs : FrameState} {ew : Nat} {i : Instr} (hw : ew < 4 * 2 ^ tw)
    (h : decode tw (dispatchWord tw fs ew) = .ok i) : i.frame = fs ∧ (2 * 2 ^ tw ≤ ew → i = .rdhi fs ∨ i = .rdlo fs) := by
  have hq : ew / 2 ^ tw < 4 := by rw [Nat.div_lt_iff_lt_mul (Nat.two_pow_pos tw)]; exact hw
  have hd := Nat.div_add_mod ew (2 ^ tw)
  have he : dispatchWord tw fs ew = frameCode fs * (4 * 2 ^ tw) + (ew / 2 ^ tw * 2 ^ tw + ew % 2 ^ tw) := by
    unfold dispatchWord; rw [Nat.mul_comm (ew / 2 ^ tw), hd]
  have hm := Nat.mod_lt ew (Nat.two_pow_pos tw)
  rw [he, decode, frameField_of_parts _ _ _ hm hq, kindField_of_parts _ _ _ hm hq, argField_of_parts _ _ _ hm,
    if_neg (by have := frameCode_le fs; omega), frameOfCode_frameCode] at h
  simp only at h
  cases hev : decodeEvent (ew / 2 ^ tw) (ew % 2 ^ tw) with
  | error w => rw [hev] at h; cases h
  | ok ev =>
    rw [hev] at h
    cases h
    refine ⟨frame_operationOf fs ev, fun h2 => ?_⟩
    have hk : 2 ≤ ew / 2 ^ tw := by rw [Nat.le_div_iff_mul_le (Nat.two_pow_pos tw)]; exact h2
    have hk : ew / 2 ^ tw = 2 ∨ ew / 2 ^ tw = 3 := by omega
    rcases hk with hk | hk <;> rw [hk] at hev
    · simp only [decodeEvent] at hev
      cases hb : decodeBit (ew % 2 ^ tw) with
      | error w => rw [hb] at hev; cases hev
      | ok b =>
        rw [hb] at hev
        cases hev
        cases b <;> cases fs <;> simp [readEvent, operationOf]
    · cases hev

/-- The event word of a well-formed event decodes to the operation that it performs in the present FrameState (R51, R52). -/
theorem decodeEventWord_eventWord (s : State) (e : Event) (h : e.wf s.tw = true) :
    decodeEventWord s (eventWord s.tw e) = .ok (operationOf s.engine.fs e) := by
  have ha := eventArg_lt h
  have hk := eventKind_lt e
  unfold decodeEventWord
  rw [if_pos (eventWord_lt h)]
  unfold decode dispatchWord eventWord
  rw [frameField_of_parts _ _ _ ha (by omega), kindField_of_parts _ _ _ ha (by omega), argField_of_parts _ _ _ ha,
    if_neg (by have := frameCode_le s.engine.fs; omega), frameOfCode_frameCode]
  cases e with
  | edge n => rfl
  | samp l => cases l <;> rfl
  | rdhi => rfl
  | rdlo => rfl

end Sys2Proof.Machine
end

