-- ==== Sys2Proof/Laws/PerInstr.lean ====
section
/-! SUPPORT. A statement for every operation, one lemma per constructor: its dispatch word has at most `TW + 5` bits
(30_encoding.md R51), and its `fs` field is one of the five codes. -/

namespace Sys2Proof.Laws.EncodingFits

/-- The encoding of a well-formed operation lies below the first reserved `fs` code (R51, R53 (a)). -/
def Statement (i : Instr) : Prop := ∀ tw, Instr.wf tw i = true → encode tw i < 5 * (4 * 2 ^ tw)

/-- The bound, for every operation at once. -/
theorem encode_below_reserved (i : Instr) : Statement i := by
  intro tw h
  have h1 := eventWord_lt (tw := tw) (e := i.event) h
  have h2 : frameCode i.frame * (4 * 2 ^ tw) ≤ 4 * (4 * 2 ^ tw) := Nat.mul_le_mul_right _ (frameCode_le i.frame)
  unfold encode dispatchWord
  omega

theorem edgeAsf (cnt : Nat) : Statement (.edgeAsf cnt) := encode_below_reserved _
theorem edgeAsr (cnt : Nat) : Statement (.edgeAsr cnt) := encode_below_reserved _
theorem edgeAcq (cnt : Nat) : Statement (.edgeAcq cnt) := encode_below_reserved _
theorem edgeRhb (cnt : Nat) : Statement (.edgeRhb cnt) := encode_below_reserved _
theorem edgeRlb (cnt : Nat) : Statement (.edgeRlb cnt) := encode_below_reserved _
theorem sampAsf (lvl : Bool) : Statement (.sampAsf lvl) := encode_below_reserved _
theorem sampAsr (lvl : Bool) : Statement (.sampAsr lvl) := encode_below_reserved _
theorem sampAcq (lvl : Bool) : Statement (.sampAcq lvl) := encode_below_reserved _
theorem sampRhb (lvl : Bool) : Statement (.sampRhb lvl) := encode_below_reserved _
theorem sampRlb (lvl : Bool) : Statement (.sampRlb lvl) := encode_below_reserved _
theorem rdhi (fs : FrameState) : Statement (.rdhi fs) := encode_below_reserved _
theorem rdlo (fs : FrameState) : Statement (.rdlo fs) := encode_below_reserved _

end Sys2Proof.Laws.EncodingFits
end

