-- ==== Sys2Proof/Tests/Slice0.lean ====
section
/-! SUPPORT. The model's own tests: expected results are the spec's vectors (95_test_vectors.md V10 to V18) or worked by hand
from the rules cited; then, for every statement with hypotheses, a witness that meets them. -/

namespace Sys2Proof.Tests

open Sys2Proof Sys2Proof.Machine

/-- The state `(fs, strobe, cur, hi, lo, 11 22)` of the vectors, with the collaborators as after reset. -/
def demo (fs : FrameState) (strobe : Nat) (cur : Cursor) (hi lo : Byte) : State :=
  { State.reset with engine := { fs, strobe, cur, hi, lo, out := [(0, 0x11), (1, 0x22)] } }

/-- The Layer 1 view of an outcome, if it is a next state. -/
def viewOf : Host.Outcome State Fault Refusal → Option (EngineState × List Command × Option Byte)
  | .next t => some (layer1View t)
  | .fault _ => none
  | .refused _ => none

/-- The engine state `(fs, strobe, cur, hi, lo, 11 22)` of the vectors. -/
def eng (fs : FrameState) (strobe : Nat) (cur : Cursor) (hi lo : Byte) : EngineState :=
  { fs, strobe, cur, hi, lo, out := [(0, 0x11), (1, 0x22)] }

/-! ### Well-formedness: one ill-formed term for each check -/

theorem test_wf_refuses_wide_count : Instr.wf 8 (.edgeAsr 256) = false := by decide
theorem test_wf_accepts_largest_count : Instr.wf 8 (.edgeAsr 255) = true := by decide
theorem test_wf_refuses_zero_width : Instr.wf 0 (.edgeAsf 0) = false := by decide
theorem test_wf_refuses_zero_width_samp : Instr.wf 0 (.sampRhb true) = false := by decide
theorem test_wf_refuses_zero_width_rdhi : Instr.wf 0 (.rdhi .asf) = false := by decide
theorem test_wf_refuses_zero_width_rdlo : Instr.wf 0 (.rdlo .asf) = false := by decide
theorem test_memory_wf_refuses_unsorted : Memory.wf [(1, 0x22), (0, 0x11)] = false := by decide
theorem test_memory_wf_refuses_unlisted_value : Memory.wf [(0, 0x00)] = false := by decide
theorem test_memory_wf_refuses_absent_cell : Memory.wf [(2, 0x11)] = false := by decide

/-! ### Decoding: words written out from the patterns of R52 (fs ++ kind ++ arg) -/

theorem test_decode_edgeAsf : decode 8 0b0000000110111 = .ok (.edgeAsf 55) := rfl
theorem test_decode_edgeAsr : decode 8 0b0010011111111 = .ok (.edgeAsr 255) := rfl
theorem test_decode_edgeAcq : decode 8 0b0100000000111 = .ok (.edgeAcq 7) := rfl
theorem test_decode_edgeRhb : decode 8 0b0110000001001 = .ok (.edgeRhb 9) := rfl
theorem test_decode_edgeRlb : decode 8 0b1000000000000 = .ok (.edgeRlb 0) := rfl
theorem test_decode_sampAsf : decode 8 0b0000100000001 = .ok (.sampAsf true) := rfl
theorem test_decode_sampAsr : decode 8 0b0010100000001 = .ok (.sampAsr true) := rfl
theorem test_decode_sampAcq : decode 8 0b0100100000000 = .ok (.sampAcq false) := rfl
theorem test_decode_sampRhb : decode 8 0b0110100000001 = .ok (.sampRhb true) := rfl
theorem test_decode_sampRlb : decode 8 0b1000100000000 = .ok (.sampRlb false) := rfl
theorem test_decode_rdhi : decode 8 0b0111000000000 = .ok (.rdhi .rhb) := rfl
theorem test_decode_rdlo : decode 8 0b1001000000001 = .ok (.rdlo .rlb) := rfl
theorem test_encode_edgeRhb : encode 8 (.edgeRhb 255) = 0x0CFF := by decide
/-- At `TW` = 7 the two upper fields shift by one place (R51). -/
theorem test_decode_at_width_seven : decode 7 0b011000001001 = .ok (.edgeRhb 9) := rfl
theorem test_refuse_frame_state : decode 8 0x1400 = .error .reservedFrameState := rfl
theorem test_refuse_kind : decode 8 0x0300 = .error .reservedEventKind := rfl
theorem test_refuse_samp_argument : decode 8 0x0D02 = .error .reservedArgument := rfl
theorem test_refuse_read_argument : decode 8 0x0202 = .error .reservedArgument := rfl
/-- Reserved on two grounds: the `fs` field is named (log 29). -/
theorem test_refuse_frame_state_before_kind : decode 8 0x1700 = .error .reservedFrameState := rfl
theorem test_refuse_overwide : decode 8 0x2000 = .error .overwideWord := rfl

/-! ### The operations: vectors V10 to V13 -/

theorem test_edgeAsf_publishes : viewOf (exec (.edgeAsf 55) (demo .asf 100 9 0xB4 0x4B)) =
    some ({ fs := .asr, strobe := 100, cur := 9, hi := 0, lo := 0, out := [(0, 0xB4), (1, 0x4B)] },
      [.selectRisingEdge, .startFreeRunning], none) := by decide
theorem test_edgeAsf_publishes_zero : viewOf (exec (.edgeAsf 0) (demo .asf 0 9 0x00 0x4B)) =
    some ({ fs := .asr, strobe := 0, cur := 9, hi := 0, lo := 0, out := [(1, 0x4B)] },
      [.selectRisingEdge, .startFreeRunning], none) := by decide
theorem test_edgeAsr_stores_count : viewOf (exec (.edgeAsr 255) (demo .asr 100 9 0 0)) =
    some (eng .acq 255 9 0 0, [.stop, .selectFallingEdge], none) := by decide
theorem test_edgeAsr_stores_zero : viewOf (exec (.edgeAsr 0) (demo .asr 100 9 0 0)) =
    some (eng .acq 0 9 0 0, [.stop, .selectFallingEdge], none) := by decide
theorem test_edgeAcq_loads_nine : viewOf (exec (.edgeAcq 7) (demo .acq 100 3 0 0)) =
    some (eng .rhb 100 9 0 0, [.clearCount, .startPeriodic 100], none) := by decide
theorem test_edgeRhb_changes_no_register : viewOf (exec (.edgeRhb 9) (demo .rhb 100 8 0x80 0)) =
    some (eng .rhb 100 8 0x80 0, [.clearCount, .startPeriodic 100], none) := by decide
theorem test_edgeRlb_changes_no_register : viewOf (exec (.edgeRlb 0) (demo .rlb 100 10 0xB4 0)) =
    some (eng .rlb 100 10 0xB4 0, [.clearCount, .startPeriodic 100], none) := by decide
theorem test_sampRhb_first_is_msb : viewOf (exec (.sampRhb true) (demo .rhb 100 9 0 0)) =
    some (eng .rhb 100 8 0x80 0, [.stopPeriodic, .clearCount], none) := by decide
theorem test_sampRhb_parity_ends_byte : viewOf (exec (.sampRhb true) (demo .rhb 100 1 0xB4 0)) =
    some (eng .rlb 100 10 0xB4 0, [.stopPeriodic, .clearCount], none) := by decide
theorem test_sampRlb_ninth_is_bit_zero : viewOf (exec (.sampRlb true) (demo .rlb 100 2 0xB4 0x4A)) =
    some (eng .rlb 100 1 0xB4 0x4B, [.stopPeriodic, .clearCount], none) := by decide
theorem test_sampRlb_placeholder_discarded : viewOf (exec (.sampRlb true) (demo .rlb 100 10 0xB4 0)) =
    some (eng .rlb 100 9 0xB4 0, [.stopPeriodic, .clearCount], none) := by decide
theorem test_sampAsf_housekeeping : viewOf (exec (.sampAsf true) (demo .asf 100 9 0xB4 0x4B)) =
    some (eng .asf 100 9 0xB4 0x4B, [.stopPeriodic, .clearCount], none) := by decide
theorem test_sampAsr_housekeeping : viewOf (exec (.sampAsr true) (demo .asr 100 9 0 0)) =
    some (eng .asr 100 9 0 0, [.stopPeriodic, .clearCount], none) := by decide
theorem test_sampAcq_housekeeping : viewOf (exec (.sampAcq false) (demo .acq 100 9 0 0)) =
    some (eng .acq 100 9 0 0, [.stopPeriodic, .clearCount], none) := by decide
theorem test_rdhi_returns_high : viewOf (exec (.rdhi .rhb) (demo .rhb 100 4 0xB0 0)) =
    some (eng .rhb 100 4 0xB0 0, [], some 0x11) := by decide
theorem test_rdlo_returns_low : viewOf (exec (.rdlo .rhb) (demo .rhb 100 4 0xB0 0)) =
    some (eng .rhb 100 4 0xB0 0, [], some 0x22) := by decide
theorem test_reading_b44b : reading 0xB4 0x4B = 46155 := by decide

/-! ### Layer 2: vectors V16 and V17, and the placing of a word -/

/-- V16: in RHB, the count one tick before the match, the line high before. -/
def beforeBoth : State :=
  { demo .rhb 4 5 0x08 0 with
    env := { EnvState.reset with tmode := .periodic, tper := 4, tcnt := 3 }, inputs := [.tick false] }

/-- The same state one tick later: both latches set. -/
def both : State :=
  { beforeBoth with
    env := { beforeBoth.env with tcnt := 0, edgePend := true, cmPend := true, linePrev := false }
    inputs := [], time := 1 }

theorem test_tick_sets_both_latches : step beforeBoth = .next both := rfl
theorem test_sample_first_then_edge_rearms : (viewOf (dispatchSample both)) =
    some (eng .rhb 4 4 0x08 0, [.stopPeriodic, .clearCount], none) := by decide
theorem test_edge_first_keeps_engine : (viewOf (dispatchEdge both)) =
    some (eng .rhb 4 5 0x08 0, [.clearCount, .startPeriodic 4], none) := by decide
/-- V17: the count after 255 wraps to 0. -/
theorem test_count_wraps : (timerTick 8 { EnvState.reset with tmode := .freeRunning, tcnt := 255 }).tcnt = 0 := by decide
theorem test_table_word_decodes : decodeTableWord 16 0x0464 = some (.edgeAsr 100) := rfl
theorem test_placed_word_runs_first : viewOf (step (State.reset.withFetchWord 16 0x0464)) =
    some ({ EngineState.reset with fs := .acq, strobe := 100 }, [.stop, .selectFallingEdge], none) := by decide
theorem test_placed_reserved_word_is_refused : viewOf (step (State.reset.withFetchWord 16 0x1400)) = none := by decide

/-! ### Witnesses: for each statement with hypotheses, concrete values that meet them all -/

theorem witness_DecodeOfEncodeIsIdentity : Instr.wf 8 (.edgeRlb 255) = true := by decide
theorem witness_EncodeOfDecodeIsIdentity : 1 ≤ 8 ∧ decode 8 0x1101 = .ok (.sampRlb true) := ⟨by decide, rfl⟩
theorem witness_DecoderRefuses_overwide : 1 ≤ 8 ∧ 2 ^ (8 + 5) ≤ 0x2000 := by norm_num
theorem witness_DecoderRefuses_frameState : 1 ≤ 8 ∧ 5 * 2 ^ (8 + 2) ≤ 0x1400 ∧ 0x1400 < 2 ^ (8 + 5) := by norm_num
theorem witness_DecoderRefuses_kind : 1 ≤ 8 ∧ 0x13FF < 5 * 2 ^ (8 + 2) ∧ 0x13FF / 2 ^ 8 % 4 = 3 := by norm_num
theorem witness_DecoderRefuses_argument :
    1 ≤ 8 ∧ 0x1102 < 5 * 2 ^ (8 + 2) ∧ (0x1102 / 2 ^ 8 % 4 = 1 ∨ 0x1102 / 2 ^ 8 % 4 = 2) ∧ 2 ≤ 0x1102 % 2 ^ 8 := by norm_num
theorem witness_DecoderRefuses_none : 1 ≤ 8 ∧ 0x1201 < 5 * 2 ^ (8 + 2) ∧
    (0x1201 / 2 ^ 8 % 4 = 0 ∨ (0x1201 / 2 ^ 8 % 4 ≠ 3 ∧ 0x1201 % 2 ^ 8 < 2)) := by norm_num

/-- A state with inputs placed. -/
def facingWord (ew : Nat) : State := { demo .rhb 100 9 0 0 with inputs := [.event ew] }

theorem witness_StepRunsTheDecodedWord : interruptPending (facingWord 0x101) = false ∧
    (facingWord 0x101).inputs = .event 0x101 :: [] ∧ 0x101 < 4 * 2 ^ (facingWord 0x101).tw ∧
    decode (facingWord 0x101).tw (dispatchWord (facingWord 0x101).tw (facingWord 0x101).engine.fs 0x101) =
      .ok (.sampRhb true) :=
  ⟨rfl, rfl, (by norm_num : (0x101 : Nat) < 4 * 2 ^ 8), (rfl : decode 8 0x0D01 = .ok (.sampRhb true))⟩
theorem witness_EventPerformsTheMappedOperation :
    Event.wf (facingWord 0x101).tw (.samp true) = true ∧ facing (facingWord 0x101) [.samp true] [] := by decide
theorem witness_PlacedWordRunsNext : decode State.reset.tw (0x0D01 % 2 ^ 16) = .ok (.sampRhb true) := rfl
theorem witness_EveryEventIsAccepted :
    Event.wf (facingWord 0x0FF).tw (.edge 255) = true ∧ facing (facingWord 0x0FF) [.edge 255] [] := by decide
theorem witness_EdgeAsrCapturesStrobe : Instr.wf State.reset.tw (.edgeAsr 255) = true := by decide
theorem witness_EdgeAsrStoresTheCountAsRead : 255 < 256 ∧ Instr.wf State.reset.tw (.edgeAsr 255) = true := by decide
theorem witness_WindowEdgesClearAndRestart : 255 < 256 := by decide
theorem witness_EdgeAsfAlonePublishes : (∀ cnt, Instr.rdhi .asf ≠ .edgeAsf cnt) ∧
    ∃ t, exec (.rdhi .asf) State.reset = .next t := ⟨nofun, _, rfl⟩
theorem witness_EdgeAcqArmsFirstSample : (demo .acq 255 9 0 0).engine.strobe < 2 ^ (demo .acq 255 9 0 0).tw := by decide
theorem witness_EdgeRhbRearmsWindow : (demo .rhb 255 9 0 0).engine.strobe < 2 ^ (demo .rhb 255 9 0 0).tw := by decide
theorem witness_EdgeRlbRearmsWindow : (demo .rlb 0 9 0 0).engine.strobe < 2 ^ (demo .rlb 0 9 0 0).tw := by decide
/-- The entries at the bounds of the clauses: 0, 1 | 2, 9 | 10, 15. -/
theorem witness_SampTakesOneSample_clauses : (0#4).toNat ≤ 1 ∧ (1#4).toNat ≤ 1 ∧ 2 ≤ (2#4).toNat ∧ 2 ≤ (9#4).toNat ∧
    (9#4).toNat ≤ 9 ∧ 10 ≤ (10#4).toNat ∧ 10 ≤ (15#4).toNat := by decide
theorem witness_SampOutsideByteOnlyHousekeeps : (Instr.sampAcq true = .sampAsf true ∨ Instr.sampAcq true = .sampAsr true ∨
    Instr.sampAcq true = .sampAcq true) := by decide
theorem witness_ParityAndPlaceholderAreDiscarded :
    (demo .rhb 100 1 0xB4 0).engine.cur = 1 ∧ (demo .rlb 100 10 0xB4 0).engine.cur = 10 := by decide
theorem witness_CommandsActOnCollaborators : 255 < 2 ^ 8 := by decide
/-- Collaborators with nothing latched, and otherwise as far from the reset state as bring-up's commands can mend. -/
def beforeBringUp : EnvState :=
  { EnvState.reset with edgesel := .rising, lirqEn := false, tmode := .freeRunning, tcnt := 5 }

theorem witness_BringUpEstablishesResetState : beforeBringUp.edgePend = false ∧ beforeBringUp.cmPend = false ∧
    beforeBringUp.tper = 0 ∧ beforeBringUp.linePrev = true ∧ beforeBringUp ≠ EnvState.reset := by decide
theorem witness_FirstCompareMatchAfterPeriod : 1 ≤ 255 ∧ 255 < 2 ^ 8 ∧ 254 < 255 := by decide
theorem witness_FreeRunningCountWraps : EnvState.reset.tcnt = 0 := by decide
theorem witness_TickAdvancesTimerThenEdges : interruptPending beforeBoth = false ∧ beforeBoth.inputs = .tick false :: [] ∧
    ¬(beforeBoth.env.tmode = .periodic ∧ beforeBoth.env.tper = 0) := by decide

/-- A state with one latch set. -/
def latched (fs : FrameState) (strobe : Nat) (edge cm : Bool) : State :=
  { demo fs strobe 9 0 0 with env := { EnvState.reset with edgePend := edge, cmPend := cm } }

theorem witness_LatchedInterruptIsDispatched_edge :
    (1 ≤ (latched .asf 0 true false).engine.strobe ∨ (latched .asf 0 true false).engine.fs = .asf ∨
      (latched .asf 0 true false).engine.fs = .asr) ∧
    (latched .asf 0 true false).env.edgePend = true ∧ (latched .asf 0 true false).env.cmPend = false := by decide
theorem witness_LatchedInterruptIsDispatched_sample :
    (latched .rhb 4 false true).env.edgePend = false ∧ (latched .rhb 4 false true).env.cmPend = true := by decide
theorem witness_EitherInterruptMayGoFirst : both.env.edgePend = true ∧ both.env.cmPend = true := by decide
theorem witness_DispatchTakesOneLatchOff : interruptPending (latched .asr 4 true false) = true ∧
    ∃ t, step (latched .asr 4 true false) = .next t := ⟨rfl, _, rfl⟩
theorem witness_ZeroStrobeIsRefused_dispatch : (latched .rlb 0 true false).env.edgePend = true ∧
    (latched .rlb 0 true false).env.cmPend = false ∧ (latched .rlb 0 true false).engine.strobe = 0 ∧
    ((latched .rlb 0 true false).engine.fs = .acq ∨ (latched .rlb 0 true false).engine.fs = .rhb ∨
      (latched .rlb 0 true false).engine.fs = .rlb) := by decide

/-- A timer in periodic mode with period 0, before a tick. -/
def zeroPeriodState : State :=
  { demo .rhb 0 9 0 0 with env := { EnvState.reset with tmode := .periodic }, inputs := [.tick true] }

theorem witness_ZeroStrobeIsRefused_tick : interruptPending zeroPeriodState = false ∧
    zeroPeriodState.inputs = .tick true :: [] ∧ zeroPeriodState.env.tmode = .periodic ∧ zeroPeriodState.env.tper = 0 := by
  decide
theorem witness_ResetInputRestoresResetValues :
    interruptPending { demo .rlb 7 3 1 2 with inputs := [.rst] } = false ∧
    ({ demo .rlb 7 3 1 2 with inputs := [.rst] } : State).inputs = .rst :: [] := by decide
theorem witness_IdleStepKeepsEverything : interruptPending State.reset = false ∧ State.reset.inputs = [] := by decide

/-- A good state that is about to take the last sample of a frame in a Layer 2 run. -/
def lastSample : State :=
  { demo .rlb 4 1 0xB4 0x4B with
    env := { EnvState.reset with tmode := .periodic, tper := 4, cmPend := true, linePrev := false }, inputs := [.tick true] }

theorem witness_StepKeepsGoodStates : lastSample.good ∧ ∃ t, step lastSample = .next t := ⟨by decide, _, rfl⟩
theorem witness_StepKeepsTimerAgreement : timerAgrees lastSample ∧ layer2Run lastSample ∧ ∃ t, step lastSample = .next t :=
  ⟨by decide, by decide, _, rfl⟩

/-- EDGE.ASF about to publish. -/
def aboutToPublish : State := { demo .asf 4 9 0xB4 0x4B with inputs := [.event 0] }

theorem witness_BufferChangesOnlyAtPublish :
    ∃ t, step aboutToPublish = .next t ∧ t.engine.out ≠ aboutToPublish.engine.out := ⟨_, rfl, by decide⟩

/-- EDGE.ASR about to store a new strobe, with bits set in both accumulators. -/
def aboutToCapture : State := { demo .asr 4 9 0xB4 0x4B with inputs := [.event 9] }

theorem witness_StrobeAndAccumulatorsAreStable : ∃ t, step aboutToCapture = .next t ∧ ¬resetNext aboutToCapture ∧
    t.engine.strobe ≠ aboutToCapture.engine.strobe ∧
    ¬(aboutToCapture.engine.fs = .asf ∧ t.engine.fs = .asr) ∧ aboutToCapture.engine.hi.getLsbD 7 = true ∧
    aboutToCapture.engine.lo.getLsbD 0 = true := ⟨_, rfl, by decide, by decide, by decide, by decide, by decide⟩
theorem witness_FrameStateFollowsTheCycle : ∃ t, step aboutToPublish = .next t ∧ ¬resetNext aboutToPublish ∧
    t.engine.fs ≠ aboutToPublish.engine.fs := ⟨_, rfl, by decide, by decide⟩
theorem witness_OnlyLastSampleReturnsToAsf : ∃ t, step lastSample = .next t ∧ ¬resetNext lastSample ∧
    lastSample.engine.fs ≠ .asf ∧ t.engine.fs = .asf := ⟨_, rfl, by decide, by decide, by decide⟩
theorem witness_EngineIsIndependentOfEnvironment :
    both.engine = beforeBoth.engine ∧ both.tw = beforeBoth.tw ∧ both.env ≠ beforeBoth.env := by decide

/-- Nineteen samples of a frame, all high, after the first edge. -/
def nineteenHigh : List Event := (List.replicate 18 true).flatMap fun b => [.samp b, .edge 0]

/-- A state in ACQ that faces them. -/
def facingSamples : State :=
  { demo .acq 100 9 0 0 with inputs := traceInputs 8 (.edge 0 :: (nineteenHigh ++ [.samp true])) }

theorem witness_SamplesAssembleIntoBytes : facingSamples.engine.fs = .acq ∧
    spelled facingSamples.tw (.edge 0 :: (nineteenHigh ++ [.samp true])) ∧
    facing facingSamples (.edge 0 :: (nineteenHigh ++ [.samp true])) [] ∧
    sampleCount (nineteenHigh ++ [.samp true]) = 19 := ⟨rfl, by decide, ⟨rfl, rfl⟩, rfl⟩

/-- Program P1's trace: a frame, the next start edge, two reads. -/
def frameAndRead : List Event := frame 100 0xB4 true true 0x4B false ++ .edge 0 :: rd16

theorem witness_FrameIsReadBackAfterNextStart :
    (demo .asf 0 9 0 0).engine.fs = .asf ∧ spelled (demo .asf 0 9 0 0).tw frameAndRead ∧
    facing { demo .asf 0 9 0 0 with inputs := traceInputs 8 frameAndRead } frameAndRead [] :=
  ⟨rfl, by decide, ⟨rfl, rfl⟩⟩

/-- A state in a byte that faces `n` samples. -/
def facingHighSamples (fs : FrameState) (cur : Cursor) (n : Nat) : State :=
  { demo fs 100 cur 0 0 with inputs := traceInputs 8 (List.replicate n (.samp true)) }

theorem witness_BytesEndAfterTheirSamples_before :
    1 ≤ (facingHighSamples .rlb 2 1).engine.cur.toNat ∧ spelled 8 (List.replicate 1 (.samp true)) ∧
    facing (facingHighSamples .rlb 2 1) (List.replicate 1 (.samp true)) [] ∧
    sampleCount (List.replicate 1 (.samp true)) < (facingHighSamples .rlb 2 1).engine.cur.toNat := by decide
theorem witness_BytesEndAfterTheirSamples_low :
    1 ≤ (facingHighSamples .rlb 1 1).engine.cur.toNat ∧ spelled 8 (List.replicate 1 (.samp true)) ∧
    facing (facingHighSamples .rlb 1 1) (List.replicate 1 (.samp true)) [] ∧
    sampleCount (List.replicate 1 (.samp true)) = (facingHighSamples .rlb 1 1).engine.cur.toNat ∧
    (List.replicate 1 (Event.samp true)).getLast? = some (.samp true) := by decide
theorem witness_BytesEndAfterTheirSamples_high :
    1 ≤ (facingHighSamples .rhb 1 11).engine.cur.toNat ∧ spelled 8 (List.replicate 11 (.samp true)) ∧
    facing (facingHighSamples .rhb 1 11) (List.replicate 11 (.samp true)) [] ∧
    sampleCount (List.replicate 11 (.samp true)) = (facingHighSamples .rhb 1 11).engine.cur.toNat + 10 ∧
    (List.replicate 11 (Event.samp true)).getLast? = some (.samp true) := by decide
theorem witness_BytesEndAfterTheirSamples_high_before :
    1 ≤ (facingHighSamples .rhb 1 10).engine.cur.toNat ∧ spelled 8 (List.replicate 10 (.samp true)) ∧
    facing (facingHighSamples .rhb 1 10) (List.replicate 10 (.samp true)) [] ∧
    sampleCount (List.replicate 10 (.samp true)) < (facingHighSamples .rhb 1 10).engine.cur.toNat + 10 := by decide

/-- Program P3's start: frame 1 published, frame 2 decoded. -/
def tornStart (es : List Event) : State :=
  { demo .asf 97 9 0x02 0xC3 with inputs := traceInputs 8 es }

theorem witness_ReadAcrossPublishIsTorn :
    spelled 8 [.edge 0] ∧ facing (tornStart [.rdhi, .edge 0, .rdlo]) [.rdhi, .edge 0, .rdlo] [] ∧
    facing (tornStart [.rdlo, .edge 0, .rdhi]) [.rdlo, .edge 0, .rdhi] [] := by decide

/-- A window of three ticks, the line rising after the first. -/
def armed : State :=
  { demo .rhb 3 9 0 0 with
    env := { EnvState.reset with tmode := .periodic, tper := 3, linePrev := false }
    inputs := [.tick false, .tick true, .tick true] }

theorem witness_SampleComesOnePeriodLater : interruptPending armed = false ∧ armed.env.tmode = .periodic ∧
    armed.env.tper = [false, true, true].length ∧ armed.env.tcnt = 0 ∧ 1 ≤ [false, true, true].length ∧
    [false, true, true].length < 2 ^ armed.tw ∧ armed.env.edgesel = .falling ∧
    (armed.env.linePrev :: [false, true, true]).IsChain (fun a b => (a && !b) = false) ∧
    armed.inputs = [false, true, true].map Input.tick ++ [] := by decide

/-- A start bit low for three more ticks. -/
def measuring : State :=
  { demo .asr 0 9 0 0 with
    env := { EnvState.reset with tmode := .freeRunning, edgesel := .rising, linePrev := false }
    inputs := List.replicate 3 (.tick false) ++ [.tick true] }

theorem witness_StrobeMeasuresLowPhase : interruptPending measuring = false ∧ measuring.engine.fs = .asr ∧
    measuring.env.tmode = .freeRunning ∧ measuring.env.tcnt = 0 ∧ measuring.env.edgesel = .rising ∧
    measuring.env.lirqEn = true ∧ measuring.env.linePrev = false ∧
    measuring.inputs = List.replicate 3 (.tick false) ++ .tick true :: [] := by decide

end Sys2Proof.Tests
end

/-! ## Scope (00_scope.md): what a step runs, and what an operation depends on -/

namespace Sys2Proof.Machine

/-! ### The step that consumes an input -/

/-- With no interrupt latched, a step is the effect of the next input, on the state with that input consumed (R5). -/
theorem step_of_input {s : State} {input : Input} {rest : List Input} (hp : interruptPending s = false)
    (hi : s.inputs = input :: rest) : step s = takeInput input { s with inputs := rest } := by
  simp [step, runNext, hp, hi]

/-- An event word that decodes runs the decoded operation, and nothing around it (R51). -/
theorem runEventWord_of_decode {s : State} {ew : Nat} {i : Instr} (hw : ew < 4 * 2 ^ s.tw)
    (hd : decode s.tw (dispatchWord s.tw s.engine.fs ew) = .ok i) : runEventWord ew s = exec i s := by
  have hdw : decodeEventWord s ew = .ok i := by rw [decodeEventWord, if_pos hw, hd]
  simp only [runEventWord, hdw]

/-- Settles O5: the step consumes the event word, and the word runs the operation that it decodes to. -/
theorem stepRunsTheDecodedWord : Obligations.StepRunsTheDecodedWord := by
  intro s ew rest i hp hi hw hd
  calc step s = runEventWord ew { s with inputs := rest } := step_of_input hp hi
    _ = exec i { s with inputs := rest } := runEventWord_of_decode hw hd

/-! ### Layer 1 is closed: two states that agree on it still agree after every shared operation

The relation holds once an operation has begun, whatever the collaborators, the inputs and the earlier outputs were. Each
shared operation keeps it, so each of the twelve operations, a composition of them, keeps it. -/

/-- Two states agree on `TW` and on everything that Layer 1 sees (R6). -/
structure SameLayer1 (s s' : State) : Prop where
  tw : s.tw = s'.tw
  engine : s.engine = s'.engine
  cmds : s.cmds = s'.cmds
  rdData : s.rdData = s'.rdData

namespace SameLayer1

/-- The relation in the terms of the claims. -/
theorem layer1View_eq {s s' : State} (h : SameLayer1 s s') : layer1View s = layer1View s' := by
  simp only [layer1View, h.engine, h.cmds, h.rdData]

/-- The start of an operation makes the outputs agree, so that the engine and `TW` alone need to (R6, R21). -/
theorem of_beginOperation {s s' : State} (htw : s.tw = s'.tw) (he : s.engine = s'.engine) :
    SameLayer1 (beginOperation s) (beginOperation s') := ⟨htw, he, rfl, rfl⟩

section
variable {s s' : State} (h : SameLayer1 s s')
include h

theorem after_writeFs (fs : FrameState) : SameLayer1 (writeFs fs s) (writeFs fs s') :=
  ⟨h.tw, by simp [h.engine], h.cmds, h.rdData⟩

theorem after_writeStrobe (v : Nat) : SameLayer1 (writeStrobe v s) (writeStrobe v s') :=
  ⟨h.tw, by simp [h.engine, h.tw], h.cmds, h.rdData⟩

theorem after_writeCur (v : Cursor) : SameLayer1 (writeCur v s) (writeCur v s') :=
  ⟨h.tw, by simp [h.engine], h.cmds, h.rdData⟩

theorem after_writeHi (v : Byte) : SameLayer1 (writeHi v s) (writeHi v s') :=
  ⟨h.tw, by simp [h.engine], h.cmds, h.rdData⟩

theorem after_writeLo (v : Byte) : SameLayer1 (writeLo v s) (writeLo v s') :=
  ⟨h.tw, by simp [h.engine], h.cmds, h.rdData⟩

theorem after_memWrite (c : BufferCell) (v : Byte) : SameLayer1 (memWrite c v s) (memWrite c v s') :=
  ⟨h.tw, by simp [h.engine], h.cmds, h.rdData⟩

/-- A command is recorded alike; what it does to the collaborators is not looked at. -/
theorem after_issue (c : Command) : SameLayer1 (issue c s) (issue c s') :=
  ⟨h.tw, h.engine, by simp [h.cmds], h.rdData⟩

theorem after_returnByte (b : Byte) : SameLayer1 (returnByte b s) (returnByte b s') :=
  ⟨h.tw, h.engine, h.cmds, rfl⟩

/-- The byte read is the buffer's, which the engine holds. -/
theorem after_read (c : BufferCell) : SameLayer1 (returnByte (memRead c s) s) (returnByte (memRead c s') s') := by
  have hread : memRead c s = memRead c s' := by simp only [memRead, h.engine]
  rw [hread]
  exact h.after_returnByte _

theorem after_publish : SameLayer1 (publish s) (publish s') := by
  unfold publish
  rw [h.engine]
  exact (h.after_memWrite _ _).after_memWrite _ _

theorem after_armWindow : SameLayer1 (armWindow s) (armWindow s') := by
  unfold armWindow
  rw [h.engine]
  exact (h.after_issue _).after_issue _

theorem after_sampleEntry : SameLayer1 (sampleEntry s) (sampleEntry s') :=
  (h.after_issue _).after_issue _

theorem after_takeSample : SameLayer1 (takeSample s) (takeSample s') := by
  unfold takeSample
  rw [h.engine]
  exact h.after_writeCur _

/-- Whether the sample sets a bit is decided by the level and the cursor, on which both states agree. -/
theorem after_placeHighBit (lvl : Bool) : SameLayer1 (placeHighBit lvl s) (placeHighBit lvl s') := by
  unfold placeHighBit
  rw [h.engine]
  cases setsHighBit lvl s'.engine.cur with
  | true => exact h.after_writeHi _
  | false => exact h

theorem after_placeLowBit (lvl : Bool) : SameLayer1 (placeLowBit lvl s) (placeLowBit lvl s') := by
  unfold placeLowBit
  rw [h.engine]
  cases setsLowBit lvl s'.engine.cur with
  | true => exact h.after_writeLo _
  | false => exact h

/-- Whether the byte ends is decided by the cursor alone. -/
theorem after_endOfByte (fs : FrameState) (budget : Cursor) :
    SameLayer1 (endOfByte fs budget s) (endOfByte fs budget s') := by
  unfold endOfByte
  rw [h.engine]
  cases budgetUsed s'.engine.cur with
  | true => exact (h.after_writeFs _).after_writeCur _
  | false => exact h

end

end SameLayer1

/-- Every operation leaves states that agree on Layer 1 when it starts from states with the same engine and `TW`: the proof
of each arm follows the arm's own composition. -/
theorem exec_sameLayer1 (i : Instr) {s s' : State} (htw : s.tw = s'.tw) (he : s.engine = s'.engine) :
    ∃ t t', exec i s = .next t ∧ exec i s' = .next t' ∧ SameLayer1 t t' := by
  have hb : SameLayer1 (beginOperation s) (beginOperation s') := .of_beginOperation htw he
  cases i with
  | edgeAsf cnt =>
    have hclear := (hb.after_publish.after_writeHi 0).after_writeLo 0
    exact ⟨_, _, rfl, rfl, ((hclear.after_issue _).after_issue _).after_writeFs _⟩
  | edgeAsr cnt =>
    have hcapture := (hb.after_issue .stop).after_writeStrobe cnt
    exact ⟨_, _, rfl, rfl, (hcapture.after_issue _).after_writeFs _⟩
  | edgeAcq cnt => exact ⟨_, _, rfl, rfl, (hb.after_armWindow.after_writeCur _).after_writeFs _⟩
  | edgeRhb cnt => exact ⟨_, _, rfl, rfl, hb.after_armWindow⟩
  | edgeRlb cnt => exact ⟨_, _, rfl, rfl, hb.after_armWindow⟩
  | sampAsf lvl => exact ⟨_, _, rfl, rfl, hb.after_sampleEntry⟩
  | sampAsr lvl => exact ⟨_, _, rfl, rfl, hb.after_sampleEntry⟩
  | sampAcq lvl => exact ⟨_, _, rfl, rfl, hb.after_sampleEntry⟩
  | sampRhb lvl =>
    have htake := hb.after_sampleEntry.after_takeSample
    exact ⟨_, _, rfl, rfl, (htake.after_placeHighBit lvl).after_endOfByte _ _⟩
  | sampRlb lvl =>
    have htake := hb.after_sampleEntry.after_takeSample
    exact ⟨_, _, rfl, rfl, (htake.after_placeLowBit lvl).after_endOfByte _ _⟩
  | rdhi fs => exact ⟨_, _, rfl, rfl, hb.after_read .high⟩
  | rdlo fs => exact ⟨_, _, rfl, rfl, hb.after_read .low⟩

/-- Settles O47: the outcomes agree on Layer 1, hence in all that it sees. -/
theorem engineIsIndependentOfEnvironment : Obligations.EngineIsIndependentOfEnvironment := by
  intro i s s' he htw
  obtain ⟨t, t', ht, ht', hsame⟩ := exec_sameLayer1 i htw he
  exact ⟨t, t', ht, ht', hsame.layer1View_eq⟩

end Sys2Proof.Machine

/-! ## State (10_state.md): what a step can do to engine and collaborators, and the invariants that follow -/

namespace Sys2Proof.Machine

/-! ### Bring-up and the reset values (R22, R23, R120, R122) -/

/-- Bring-up writes four fields of the collaborators, the same in every state (R122; log 30). -/
theorem applyCommands_bringUp (tw : Nat) (e : EnvState) : applyCommands tw bringUpCommands e =
    { e with edgesel := .falling, lirqEn := true, tmode := .stopped, tcnt := 0 } := rfl

/-- Settles O28: the four fields that bring-up leaves alone are the two latches, the period and the recorded line. -/
theorem bringUpEstablishesResetState : Obligations.BringUpEstablishesResetState := by
  intro tw e hedge hcm
  have hwritten : applyCommands tw bringUpCommands e =
      { EnvState.reset with tper := e.tper, linePrev := e.linePrev } := by
    rw [applyCommands_bringUp, hedge, hcm]
    rfl
  refine ⟨hwritten, fun hper hline => ?_⟩
  rw [hwritten, hper, hline]
  rfl

/-- Settles O37: the step takes the reset input, which writes engine, collaborators and outputs. -/
theorem resetInputRestoresResetValues : Obligations.ResetInputRestoresResetValues := by
  intro s rest hp hi
  calc step s = .next (applyReset { s with inputs := rest }) := step_of_input hp hi
    _ = _ := rfl

/-- Settles O38: each value is the reset state's own; the empty buffer reads 0 at every index. -/
theorem resetStateHoldsResetValues : Obligations.ResetStateHoldsResetValues :=
  ⟨rfl, rfl, rfl, rfl, rfl, readCell_nil, rfl, rfl, rfl, rfl, rfl, rfl, rfl, rfl⟩

/-- Settles O40: each invariant is a finite check of the one reset state. -/
theorem resetMeetsTheInvariants : Obligations.ResetMeetsTheInvariants :=
  ⟨by decide, by decide, by decide⟩

/-! ### What an operation does to engine and collaborators

One relation names the eleven things that an operation of the present FrameState can do. `exec_effect` ties it to `exec`; the
invariants are case splits on it. -/

/-- An accumulator after a sample that does or does not set the bit of the new cursor (R71, R72). -/
def sampledByte (sets : Bool) (acc : Byte) (cur : Cursor) : Byte := bif sets then setbit acc (bitIndex cur) else acc

/-- A sample clears no bit (R25, R74). -/
theorem sampledByte_keeps_bit {sets : Bool} {acc : Byte} {cur : Cursor} {k : Nat} (h : acc.getLsbD k = true) :
    (sampledByte sets acc cur).getLsbD k = true := by
  cases sets with
  | false => exact h
  | true => simp [sampledByte, setbit_getLsbD, h]

/-- What event `ev` does to an engine `e` and collaborators `v` at width `tw`: the engine and the collaborators that its
operation leaves (R61 to R65, R70 to R73, R80, R81). -/
inductive OperationEffect (tw : Nat) (e : EngineState) (v : EnvState) : Event → EngineState → EnvState → Prop where
  /-- EDGE.ASF (R61). -/
  | publish (cnt : Nat) (hfs : e.fs = .asf) : OperationEffect tw e v (.edge cnt)
      { e with fs := .asr, hi := 0, lo := 0, out := writeCell (writeCell e.out 0 e.hi) 1 e.lo }
      { v with edgesel := .rising, tmode := .freeRunning }
  /-- EDGE.ASR (R62). -/
  | capture (cnt : Nat) (hfs : e.fs = .asr) : OperationEffect tw e v (.edge cnt)
      { e with fs := .acq, strobe := truncTW tw cnt } { v with edgesel := .falling, tmode := .stopped }
  /-- EDGE.ACQ (R63). -/
  | firstWindow (cnt : Nat) (hfs : e.fs = .acq) : OperationEffect tw e v (.edge cnt)
      { e with fs := .rhb, cur := highBudget } { v with tcnt := 0, tper := truncTW tw e.strobe, tmode := .periodic }
  /-- EDGE.RHB and EDGE.RLB (R64, R65). -/
  | nextWindow (cnt : Nat) (hfs : insideByte e.fs = true) : OperationEffect tw e v (.edge cnt)
      e { v with tcnt := 0, tper := truncTW tw e.strobe, tmode := .periodic }
  /-- SAMP outside a byte (R73). -/
  | housekeep (lvl : Bool) (hfs : insideByte e.fs = false) : OperationEffect tw e v (.samp lvl)
      e { v with tmode := .stopped, tcnt := 0 }
  /-- SAMP.RHB before the budget is used up (R71). -/
  | sampleHigh (lvl : Bool) (hfs : e.fs = .rhb) (hcur : countSample e.cur ≠ 0) : OperationEffect tw e v (.samp lvl)
      { e with cur := countSample e.cur,
               hi := sampledByte (setsHighBit lvl (countSample e.cur)) e.hi (countSample e.cur) }
      { v with tmode := .stopped, tcnt := 0 }
  /-- SAMP.RHB that uses up the budget (R71). -/
  | endHigh (lvl : Bool) (hfs : e.fs = .rhb) (hcur : countSample e.cur = 0) : OperationEffect tw e v (.samp lvl)
      { e with fs := .rlb, cur := lowBudget } { v with tmode := .stopped, tcnt := 0 }
  /-- SAMP.RLB before the budget is used up (R72). -/
  | sampleLow (lvl : Bool) (hfs : e.fs = .rlb) (hcur : countSample e.cur ≠ 0) : OperationEffect tw e v (.samp lvl)
      { e with cur := countSample e.cur,
               lo := sampledByte (setsLowBit lvl (countSample e.cur)) e.lo (countSample e.cur) }
      { v with tmode := .stopped, tcnt := 0 }
  /-- SAMP.RLB that uses up the budget (R72). -/
  | endLow (lvl : Bool) (hfs : e.fs = .rlb) (hcur : countSample e.cur = 0) : OperationEffect tw e v (.samp lvl)
      { e with fs := .asf, cur := highBudget } { v with tmode := .stopped, tcnt := 0 }
  /-- RDHI (R80). -/
  | readHigh : OperationEffect tw e v .rdhi e v
  /-- RDLO (R81). -/
  | readLow : OperationEffect tw e v .rdlo e v

/-- SAMP.RHB: whether the byte ends is decided by the decremented cursor; a sample that ends it sets no bit (R71). -/
theorem exec_sampRhb_effect {lvl : Bool} {s t : State} (hfs : s.engine.fs = .rhb) (h : exec (.sampRhb lvl) s = .next t) :
    OperationEffect s.tw s.engine s.env (.samp lvl) t.engine t.env := by
  cases h
  rw [endOfByte_eq, placeHighBit_eq, takeSample, sampleEntry_eq]
  by_cases hcur : countSample s.engine.cur = 0
  · simpa [budgetUsed, setsHighBit, hcur] using OperationEffect.endHigh lvl hfs hcur
  · have hopen : budgetUsed (countSample s.engine.cur) = false := decide_eq_false hcur
    simpa [hopen, sampledByte] using OperationEffect.sampleHigh lvl hfs hcur

/-- SAMP.RLB: as SAMP.RHB, with the low accumulator (R72). -/
theorem exec_sampRlb_effect {lvl : Bool} {s t : State} (hfs : s.engine.fs = .rlb) (h : exec (.sampRlb lvl) s = .next t) :
    OperationEffect s.tw s.engine s.env (.samp lvl) t.engine t.env := by
  cases h
  rw [endOfByte_eq, placeLowBit_eq, takeSample, sampleEntry_eq]
  by_cases hcur : countSample s.engine.cur = 0
  · simpa [budgetUsed, setsLowBit, hcur] using OperationEffect.endLow lvl hfs hcur
  · have hopen : budgetUsed (countSample s.engine.cur) = false := decide_eq_false hcur
    simpa [hopen, sampledByte] using OperationEffect.sampleLow lvl hfs hcur

/-- The operation that an event performs in the present FrameState has one of the named effects (R52). -/
theorem exec_effect {ev : Event} {s t : State} (h : exec (operationOf s.engine.fs ev) s = .next t) :
    OperationEffect s.tw s.engine s.env ev t.engine t.env := by
  cases ev with
  | edge cnt =>
    cases hfs : s.engine.fs <;> rw [hfs] at h
    case asf => cases h; exact .publish cnt hfs
    case asr => cases h; exact .capture cnt hfs
    case acq => cases h; exact .firstWindow cnt hfs
    case rhb => cases h; exact .nextWindow cnt (by rw [hfs]; rfl)
    case rlb => cases h; exact .nextWindow cnt (by rw [hfs]; rfl)
  | samp lvl =>
    cases hfs : s.engine.fs <;> rw [hfs] at h
    case asf => cases h; exact .housekeep lvl (by rw [hfs]; rfl)
    case asr => cases h; exact .housekeep lvl (by rw [hfs]; rfl)
    case acq => cases h; exact .housekeep lvl (by rw [hfs]; rfl)
    case rhb => exact exec_sampRhb_effect hfs h
    case rlb => exact exec_sampRlb_effect hfs h
  | rdhi => cases hfs : s.engine.fs <;> rw [hfs] at h <;> cases h <;> exact .readHigh
  | rdlo => cases hfs : s.engine.fs <;> rw [hfs] at h <;> cases h <;> exact .readLow

/-! ### What a step does to engine and collaborators -/

/-- Which event a step of `s` may perform, and on which collaborators `v`: a latched interrupt, its latch cleared, or the
next event word, which from `2 * 2^TW` on is a read (R51, R94). -/
inductive Occasion (s : State) : Event → EnvState → Prop where
  | lineEdge (hpend : s.env.edgePend = true) : Occasion s (.edge s.env.tcnt) { s.env with edgePend := false }
  | compareMatch (hpend : s.env.cmPend = true) : Occasion s (.samp s.env.linePrev) { s.env with cmPend := false }
  | eventWord {ew : Nat} {rest : List Input} {ev : Event} (hin : s.inputs = .event ew :: rest)
      (hread : 2 * 2 ^ s.tw ≤ ew → ev = .rdhi ∨ ev = .rdlo) : Occasion s ev s.env

/-- What a step can leave of engine and collaborators. -/
inductive StepEffect (s t : State) : Prop where
  | operation (ev : Event) (v : EnvState) (hocc : Occasion s ev v)
      (heff : OperationEffect s.tw s.engine v ev t.engine t.env)
  | tick (line : Bool) (hengine : t.engine = s.engine) (henv : t.env = collaboratorTick s.tw line s.env)
  | idle (hengine : t.engine = s.engine) (henv : t.env = s.env)
  | reset (hnext : resetNext s) (hengine : t.engine = EngineState.reset) (henv : t.env = EnvState.reset)

/-- Every step performs an event on its occasion, ticks, idles or resets. -/
theorem step_effect {s t : State} (h : step s = .next t) : StepEffect s t := by
  rcases step_cases h with ⟨hp, hd⟩ | ⟨-, -, rfl⟩ | ⟨-, ew, rest, i, hin, hw, hdec, hex⟩ | ⟨-, line, rest, -, -, rfl⟩ |
    ⟨hp, rest, hin, rfl⟩
  · obtain ⟨d, ⟨hpend, hex⟩ | ⟨hpend, hex⟩⟩ := dispatchPending_next hd hp
    · exact .operation _ _ (.lineEdge hpend) (exec_effect (s := { clearEdgePend s with draws := d }) hex)
    · exact .operation _ _ (.compareMatch hpend) (exec_effect (s := { clearCmPend s with draws := d }) hex)
  · exact .idle rfl rfl
  · obtain ⟨hframe, hread⟩ := decode_frame hw hdec
    have hocc : Occasion s i.event s.env :=
      .eventWord hin fun hew => (hread hew).imp (congrArg Instr.event) (congrArg Instr.event)
    have hop : operationOf s.engine.fs i.event = i := by rw [← hframe, operationOf_frame_event]
    exact .operation _ _ hocc (exec_effect (s := { s with inputs := rest }) (by rw [hop]; exact hex))
  · exact .tick line rfl rfl
  · exact .reset ⟨hp, by rw [hin]; rfl⟩ rfl rfl

/-- The engine's part: a step performs an operation, leaves the engine as it is, or resets it. -/
theorem step_engine {s t : State} (h : step s = .next t) :
    (∃ ev v, OperationEffect s.tw s.engine v ev t.engine t.env) ∨ t.engine = s.engine ∨
      (resetNext s ∧ t.engine = EngineState.reset) := by
  cases step_effect h with
  | operation ev v hocc heff => exact .inl ⟨ev, v, heff⟩
  | tick line hengine henv => exact .inr (.inl hengine)
  | idle hengine henv => exact .inr (.inl hengine)
  | reset hnext hengine henv => exact .inr (.inr ⟨hnext, hengine⟩)

/-- An operation writes neither `TW` nor the inputs. -/
theorem exec_tw_inputs {i : Instr} {s t : State} (h : exec i s = .next t) : t.tw = s.tw ∧ t.inputs = s.inputs := by
  obtain ⟨u, hu, htw, hin, -⟩ := exec_next i s
  cases hu.symm.trans h
  exact ⟨htw, hin⟩

/-- No step writes `TW`, and the inputs are only ever consumed (log 1, log 7). -/
theorem step_tw_inputs {s t : State} (h : step s = .next t) : t.tw = s.tw ∧ t.inputs <:+ s.inputs := by
  rcases step_cases h with ⟨hp, hd⟩ | ⟨-, -, rfl⟩ | ⟨-, ew, rest, i, hin, -, -, hex⟩ | ⟨-, line, rest, hin, -, rfl⟩ |
    ⟨-, rest, hin, rfl⟩
  · obtain ⟨htw, hin⟩ : t.tw = s.tw ∧ t.inputs = s.inputs := by
      obtain ⟨d, ⟨-, hex⟩ | ⟨-, hex⟩⟩ := dispatchPending_next hd hp <;> exact (exec_tw_inputs hex :)
    exact ⟨htw, by rw [hin]⟩
  · exact ⟨rfl, List.suffix_rfl⟩
  · obtain ⟨htw, hrest⟩ := exec_tw_inputs hex
    exact ⟨htw, by rw [hin, hrest]; exact List.suffix_cons _ _⟩
  · exact ⟨rfl, by rw [hin]; exact List.suffix_cons _ _⟩
  · exact ⟨rfl, by rw [hin]; exact List.suffix_cons _ _⟩

/-! ### The buffer, the strobe, the accumulators and FrameState (R24, R25, R11) -/

section
variable {tw : Nat} {e e' : EngineState} {v v' : EnvState} {ev : Event} (h : OperationEffect tw e v ev e' v')
include h

/-- Only the publish writes the buffer, and then it reads as the old accumulators (R24, R61). -/
theorem OperationEffect.out_eq_or_published : e'.out = e.out ∨
    (e.fs = .asf ∧ e'.fs = .asr ∧ readCell e'.out 0 = e.hi ∧ readCell e'.out 1 = e.lo) := by
  cases h with
  | publish cnt hfs =>
    refine .inr ⟨hfs, rfl, ?_, readCell_writeCell_same _ _ _⟩
    rw [readCell_writeCell_other _ _ (by decide), readCell_writeCell_same]
  | _ => exact .inl rfl

/-- Only EDGE.ASR writes the strobe (R25). -/
theorem OperationEffect.strobe_eq_or_captured : e'.strobe = e.strobe ∨ (e.fs = .asr ∧ e'.fs = .acq) := by
  cases h with
  | capture cnt hfs => exact .inr ⟨hfs, rfl⟩
  | _ => exact .inl rfl

/-- Unless the operation is EDGE.ASF, a set bit of an accumulator stays set (R25). -/
theorem OperationEffect.keeps_bits (hpub : ¬(e.fs = .asf ∧ e'.fs = .asr)) (k : Nat) :
    (e.hi.getLsbD k = true → e'.hi.getLsbD k = true) ∧ (e.lo.getLsbD k = true → e'.lo.getLsbD k = true) := by
  cases h with
  | publish cnt hfs => exact absurd ⟨hfs, rfl⟩ hpub
  | sampleHigh lvl hfs hcur => exact ⟨sampledByte_keeps_bit, id⟩
  | sampleLow lvl hfs hcur => exact ⟨id, sampledByte_keeps_bit⟩
  | _ => exact ⟨id, id⟩

/-- FrameState stays or moves one place along its cycle (R11). -/
theorem OperationEffect.fs_cycle : e'.fs = e.fs ∨ (e.fs = .asf ∧ e'.fs = .asr) ∨ (e.fs = .asr ∧ e'.fs = .acq) ∨
    (e.fs = .acq ∧ e'.fs = .rhb) ∨ (e.fs = .rhb ∧ e'.fs = .rlb) ∨ (e.fs = .rlb ∧ e'.fs = .asf) := by
  cases h with
  | publish cnt hfs => simp [hfs]
  | capture cnt hfs => simp [hfs]
  | firstWindow cnt hfs => simp [hfs]
  | endHigh lvl hfs hcur => simp [hfs]
  | endLow lvl hfs hcur => simp [hfs]
  | _ => exact .inl rfl

end

/-- Settles O43: an operation writes the buffer only as the publish, and a tick or an idle step not at all. -/
theorem bufferChangesOnlyAtPublish : Obligations.BufferChangesOnlyAtPublish := by
  intro s t h hne
  rcases step_engine h with ⟨ev, v, heff⟩ | hsame | hreset
  · exact .inl (heff.out_eq_or_published.resolve_left hne)
  · exact absurd (by rw [hsame]) hne
  · exact .inr hreset

/-- Settles O44: the two facts about operations; without a reset nothing else writes the engine. -/
theorem strobeAndAccumulatorsAreStable : Obligations.StrobeAndAccumulatorsAreStable := by
  intro s t h hno
  rcases step_engine h with ⟨ev, v, heff⟩ | hsame | ⟨hreset, -⟩
  · exact ⟨heff.strobe_eq_or_captured.resolve_left, heff.keeps_bits⟩
  · rw [hsame]
    exact ⟨fun hne => absurd rfl hne, fun _ _ => ⟨id, id⟩⟩
  · exact absurd hreset hno

/-- Settles O45: an operation moves FrameState along the cycle; without a reset nothing else moves it. -/
theorem frameStateFollowsTheCycle : Obligations.FrameStateFollowsTheCycle := by
  intro s t h hno hne
  rcases step_engine h with ⟨ev, v, heff⟩ | hsame | ⟨hreset, -⟩
  · exact heff.fs_cycle.resolve_left hne
  · exact absurd (by rw [hsame]) hne
  · exact absurd hreset hno

/-! ### Good states stay good (R26, R27) -/

/-- The part of `State.good` that is about engine and collaborators, clause by clause. -/
structure GoodParts (tw : Nat) (e : EngineState) (v : EnvState) : Prop where
  strobe : e.strobe < 2 ^ tw
  period : v.tper < 2 ^ tw
  count : v.tcnt < 2 ^ tw
  cursor : cursorInRange e = true
  edgesel : v.edgesel = edgeSelOf e.fs
  buffer : Memory.wf e.out = true

theorem good_iff {s : State} : s.good ↔ 1 ≤ s.tw ∧ GoodParts s.tw s.engine s.env :=
  ⟨fun ⟨⟨htw, hstrobe, hper, hcnt⟩, hcur, hsel, hwf⟩ => ⟨htw, hstrobe, hper, hcnt, hcur, hsel, hwf⟩,
    fun ⟨htw, g⟩ => ⟨⟨htw, g.strobe, g.period, g.count⟩, g.cursor, g.edgesel, g.buffer⟩⟩

/-- Taking a latch off touches nothing that a good state speaks of. -/
theorem Occasion.keeps_goodParts {s : State} {ev : Event} {v : EnvState} (hocc : Occasion s ev v)
    (g : GoodParts s.tw s.engine s.env) : GoodParts s.tw s.engine v := by
  cases hocc <;> exact ⟨g.strobe, g.period, g.count, g.cursor, g.edgesel, g.buffer⟩

/-- Counting a sample that does not use up the cursor stays in the range of the byte being read (R26, R75). -/
theorem cursorInRange_of_counted {e e' : EngineState} (h : cursorInRange e = true) (hin : insideByte e.fs = true)
    (hcur : countSample e.cur ≠ 0) (hfs : e'.fs = e.fs) (hcount : e'.cur = countSample e.cur) :
    cursorInRange e' = true := by
  have hpos : e'.cur.toNat ≠ 0 := fun h0 => hcur (hcount ▸ BitVec.eq_of_toNat_eq h0)
  have hdec : e'.cur.toNat = e.cur.toNat - 1 := by rw [hcount, countSample_toNat]
  cases hbyte : e.fs <;>
    simp only [hbyte, cursorInRange, insideByte, hfs, Bool.and_eq_true, decide_eq_true_eq] at hin h ⊢
  case rhb => omega
  case rlb => omega
  all_goals cases hin

section
variable {tw : Nat} {e e' : EngineState} {v v' : EnvState} {ev : Event} (h : OperationEffect tw e v ev e' v')
include h

/-- The cursor outside a byte is 9, and each byte starts with its own budget (R26). -/
theorem OperationEffect.keeps_cursorInRange (hc : cursorInRange e = true) : cursorInRange e' = true := by
  cases h with
  | publish cnt hfs => simpa [cursorInRange, hfs] using hc
  | capture cnt hfs => simpa [cursorInRange, hfs] using hc
  | firstWindow cnt hfs => rfl
  | sampleHigh lvl hfs hcur => exact cursorInRange_of_counted hc (by rw [hfs]; rfl) hcur rfl rfl
  | endHigh lvl hfs hcur => rfl
  | sampleLow lvl hfs hcur => exact cursorInRange_of_counted hc (by rw [hfs]; rfl) hcur rfl rfl
  | endLow lvl hfs hcur => rfl
  | _ => exact hc

/-- The selected edge moves with FrameState: to Rising on entering ASR, to Falling on leaving it (R27). -/
theorem OperationEffect.keeps_edgesel (hs : v.edgesel = edgeSelOf e.fs) : v'.edgesel = edgeSelOf e'.fs := by
  cases h with
  | publish cnt hfs => rfl
  | capture cnt hfs => rfl
  | firstWindow cnt hfs => rw [hfs] at hs; exact hs
  | endHigh lvl hfs hcur => rw [hfs] at hs; exact hs
  | endLow lvl hfs hcur => rw [hfs] at hs; exact hs
  | _ => exact hs

/-- Every value that an operation writes into the strobe, the period or the count has `TW` bits (R4, R7). -/
theorem OperationEffect.keeps_widths (hstrobe : e.strobe < 2 ^ tw) (hper : v.tper < 2 ^ tw) (hcnt : v.tcnt < 2 ^ tw) :
    e'.strobe < 2 ^ tw ∧ v'.tper < 2 ^ tw ∧ v'.tcnt < 2 ^ tw := by
  have hzero := Nat.two_pow_pos tw
  cases h with
  | publish cnt hfs => exact ⟨hstrobe, hper, hcnt⟩
  | capture cnt hfs => exact ⟨truncTW_lt _ _, hper, hcnt⟩
  | firstWindow cnt hfs => exact ⟨hstrobe, truncTW_lt _ _, hzero⟩
  | nextWindow cnt hfs => exact ⟨hstrobe, truncTW_lt _ _, hzero⟩
  | readHigh => exact ⟨hstrobe, hper, hcnt⟩
  | readLow => exact ⟨hstrobe, hper, hcnt⟩
  | _ => exact ⟨hstrobe, hper, hzero⟩

/-- The publish writes the two cells in their canonical places; no other operation writes the buffer. -/
theorem OperationEffect.keeps_memory_wf (hwf : Memory.wf e.out = true) : Memory.wf e'.out = true := by
  cases h with
  | publish cnt hfs => exact wf_writeCell _ _ _ (by decide) (wf_writeCell _ _ _ (by decide) hwf)
  | _ => exact hwf

theorem OperationEffect.keeps_goodParts (g : GoodParts tw e v) : GoodParts tw e' v' := by
  obtain ⟨hstrobe, hper, hcnt⟩ := h.keeps_widths g.strobe g.period g.count
  exact ⟨hstrobe, hper, hcnt, h.keeps_cursorInRange g.cursor, h.keeps_edgesel g.edgesel, h.keeps_memory_wf g.buffer⟩

end

/-- A tick of the timer writes the count, cut to `TW` bits, and neither the period nor the selected edge (R100). -/
theorem timerTick_goodParts {tw : Nat} {e : EngineState} {v : EnvState} (g : GoodParts tw e v) :
    GoodParts tw e (timerTick tw v) := by
  have hnext : nextCount tw v < 2 ^ tw := truncTW_lt _ _
  rcases timerTick_cases tw v with ⟨-, ht⟩ | ⟨-, ht⟩ | ⟨-, -, ht⟩ | ⟨-, -, ht⟩ <;> rw [ht]
  · exact g
  · exact ⟨g.strobe, g.period, hnext, g.cursor, g.edgesel, g.buffer⟩
  · exact ⟨g.strobe, g.period, Nat.two_pow_pos tw, g.cursor, g.edgesel, g.buffer⟩
  · exact ⟨g.strobe, g.period, hnext, g.cursor, g.edgesel, g.buffer⟩

/-- Edge detection writes a latch and the recorded level only (R105), so a tick keeps what the timer's tick keeps. -/
theorem collaboratorTick_goodParts {tw : Nat} {e : EngineState} {v : EnvState} (line : Bool) (g : GoodParts tw e v) :
    GoodParts tw e (collaboratorTick tw line v) :=
  have gt := timerTick_goodParts g
  ⟨gt.strobe, gt.period, gt.count, gt.cursor, gt.edgesel, gt.buffer⟩

/-- The reset values are good at every width. -/
theorem reset_goodParts (tw : Nat) : GoodParts tw EngineState.reset EnvState.reset :=
  ⟨Nat.two_pow_pos tw, Nat.two_pow_pos tw, Nat.two_pow_pos tw, rfl, rfl, wf_nil⟩

/-- Settles O41: `TW` is never written, and each kind of step keeps the rest. -/
theorem stepKeepsGoodStates : Obligations.StepKeepsGoodStates := by
  intro s t hgood h
  obtain ⟨htw, g⟩ := good_iff.mp hgood
  rw [good_iff, (step_tw_inputs h).1]
  refine ⟨htw, ?_⟩
  cases step_effect h with
  | operation ev v hocc heff => exact heff.keeps_goodParts (hocc.keeps_goodParts g)
  | tick line hengine henv => rw [hengine, henv]; exact collaboratorTick_goodParts line g
  | idle hengine henv => rw [hengine, henv]; exact g
  | reset hnext hengine henv => rw [hengine, henv]; exact reset_goodParts s.tw

/-! ### Timer and FrameState keep agreeing in a Layer 2 run (R28) -/

/-- `timerAgrees`, clause by clause, of an engine and collaborators. -/
structure TimerAgreement (e : EngineState) (v : EnvState) : Prop where
  periodic_inside : v.tmode = .periodic → insideByte e.fs = true
  latched_inside : v.cmPend = true → insideByte e.fs = true
  asf_stopped : e.fs = .asf → v.tmode = .stopped ∧ v.tcnt = 0
  asr_running : e.fs = .asr → v.tmode = .freeRunning
  acq_stopped : e.fs = .acq → v.tmode = .stopped

theorem timerAgrees_iff {s : State} : timerAgrees s ↔ TimerAgreement s.engine s.env :=
  ⟨fun ⟨hper, hcm, hasf, hasr, hacq⟩ => ⟨hper, hcm, hasf, hasr, hacq⟩,
    fun a => ⟨a.periodic_inside, a.latched_inside, a.asf_stopped, a.asr_running, a.acq_stopped⟩⟩

/-- Inside a byte the agreement asks nothing of the collaborators. -/
theorem TimerAgreement.of_insideByte {e : EngineState} {v : EnvState} (h : insideByte e.fs = true) :
    TimerAgreement e v := by
  refine ⟨fun _ => h, fun _ => h, fun hfs => ?_, fun hfs => ?_, fun hfs => ?_⟩ <;> simp [hfs, insideByte] at h

/-- Outside a byte no compare match is latched. -/
theorem TimerAgreement.not_latched {e : EngineState} {v : EnvState} (a : TimerAgreement e v)
    (h : insideByte e.fs = false) : v.cmPend = false := by
  cases hc : v.cmPend with
  | false => rfl
  | true => rw [a.latched_inside hc] at h; cases h

/-- An operation keeps the agreement when it answers no SAMP, or one inside a byte whose latch has been taken off: the last
sample of a frame leaves the byte with the timer stopped at count 0. -/
theorem OperationEffect.keeps_timerAgreement {tw : Nat} {e e' : EngineState} {v v' : EnvState} {ev : Event}
    (h : OperationEffect tw e v ev e' v') (a : TimerAgreement e v)
    (hsamp : ∀ lvl, ev = .samp lvl → insideByte e.fs = true ∧ v.cmPend = false) : TimerAgreement e' v' := by
  cases h with
  | publish cnt hfs =>
    have hcm := a.not_latched (by rw [hfs]; rfl)
    constructor <;> simp [hcm]
  | capture cnt hfs =>
    have hcm := a.not_latched (by rw [hfs]; rfl)
    constructor <;> simp [hcm]
  | firstWindow cnt hfs => exact .of_insideByte rfl
  | nextWindow cnt hfs => exact .of_insideByte hfs
  | housekeep lvl hfs =>
    have hinside := (hsamp lvl rfl).1
    rw [hfs] at hinside
    cases hinside
  | sampleHigh lvl hfs hcur => exact .of_insideByte (by simp [hfs, insideByte])
  | endHigh lvl hfs hcur => exact .of_insideByte rfl
  | sampleLow lvl hfs hcur => exact .of_insideByte (by simp [hfs, insideByte])
  | endLow lvl hfs hcur =>
    have hcm := (hsamp lvl rfl).2
    constructor <;> simp [hcm]
  | readHigh => exact a
  | readLow => exact a

/-- Taking a latch off keeps the agreement. -/
theorem Occasion.keeps_timerAgreement {s : State} {ev : Event} {v : EnvState} (hocc : Occasion s ev v)
    (a : TimerAgreement s.engine s.env) : TimerAgreement s.engine v := by
  cases hocc with
  | lineEdge hpend => exact ⟨a.periodic_inside, a.latched_inside, a.asf_stopped, a.asr_running, a.acq_stopped⟩
  | compareMatch hpend => exact ⟨a.periodic_inside, nofun, a.asf_stopped, a.asr_running, a.acq_stopped⟩
  | eventWord hin hread => exact a

/-- In a Layer 2 run a SAMP comes from the compare-match latch alone, hence inside a byte, and that latch is taken off. -/
theorem Occasion.samp_inside {s : State} {v : EnvState} {lvl : Bool} (hocc : Occasion s (.samp lvl) v)
    (a : TimerAgreement s.engine s.env) (hrun : layer2Run s) : insideByte s.engine.fs = true ∧ v.cmPend = false := by
  cases hocc with
  | compareMatch hpend => exact ⟨a.latched_inside hpend, rfl⟩
  | @eventWord ew rest _ hin hread =>
    have hlayer2 : Input.layer2 s.tw (.event ew) = true :=
      List.all_eq_true.mp hrun _ (by rw [hin]; exact List.mem_cons_self)
    rcases hread (of_decide_eq_true hlayer2) with hev | hev <;> cases hev

/-- A tick changes no mode, moves no stopped count, and latches a compare match in periodic mode only (R100, R105). -/
theorem collaboratorTick_timerAgreement {tw : Nat} {e : EngineState} {v : EnvState} (line : Bool)
    (a : TimerAgreement e v) : TimerAgreement e (collaboratorTick tw line v) := by
  unfold collaboratorTick edgeDetect
  rcases timerTick_cases tw v with ⟨hm, ht⟩ | ⟨hm, ht⟩ | ⟨hm, -, ht⟩ | ⟨hm, -, ht⟩ <;> rw [ht]
  · exact ⟨a.periodic_inside, a.latched_inside, a.asf_stopped, a.asr_running, a.acq_stopped⟩
  · refine ⟨a.periodic_inside, a.latched_inside, fun hfs => ?_, a.asr_running, a.acq_stopped⟩
    cases hm.symm.trans (a.asf_stopped hfs).1
  · exact .of_insideByte (a.periodic_inside hm)
  · exact .of_insideByte (a.periodic_inside hm)

/-- The timer agrees with FrameState after reset. -/
theorem reset_timerAgreement : TimerAgreement EngineState.reset EnvState.reset := by
  constructor <;> decide

/-- Inputs are only consumed and `TW` is never written, so what follows in a Layer 2 run is a Layer 2 run. -/
theorem step_layer2Run {s t : State} (h : step s = .next t) (hrun : layer2Run s) : layer2Run t := by
  obtain ⟨htw, hsuffix⟩ := step_tw_inputs h
  rw [layer2Run, htw]
  exact List.all_eq_true.mpr fun input hmem => List.all_eq_true.mp hrun input (hsuffix.subset hmem)

/-- Settles O42: each kind of step of a Layer 2 run keeps the agreement, and the run stays one. -/
theorem stepKeepsTimerAgreement : Obligations.StepKeepsTimerAgreement := by
  intro s t hagrees hrun h
  have a := timerAgrees_iff.mp hagrees
  refine ⟨timerAgrees_iff.mpr ?_, step_layer2Run h hrun⟩
  cases step_effect h with
  | operation ev v hocc heff =>
    exact heff.keeps_timerAgreement (hocc.keeps_timerAgreement a) fun lvl hev => (hev ▸ hocc).samp_inside a hrun
  | tick line hengine henv => rw [hengine, henv]; exact collaboratorTick_timerAgreement line a
  | idle hengine henv => rw [hengine, henv]; exact a
  | reset hnext hengine henv => rw [hengine, henv]; exact reset_timerAgreement

end Sys2Proof.Machine

/-! ## Memory (20_memory.md): the reading of two bytes, and a read pair that straddles a publish -/

namespace Sys2Proof.Machine

/-! ### The 16-bit reading (R32, R82) -/

/-- Settles O26: the second byte lies below the 8 bits by which the first is shifted, so the disjunction is a sum. -/
theorem readingHasHighByteFirst : Obligations.ReadingHasHighByteFirst := by
  intro h l
  calc (reading h l).toNat = h.toNat <<< 8 ||| l.toNat := BitVec.toNat_append h l
    _ = h.toNat <<< 8 + l.toNat := (Nat.shiftLeft_add_eq_or_of_lt l.isLt h.toNat).symm
    _ = 256 * h.toNat + l.toNat := by rw [Nat.shiftLeft_eq, Nat.mul_comm]

/-! ### One event of a trace

The step that consumes it, and that the rest of the trace is faced next. -/

/-- The word of a well-formed event runs the operation that the event performs in the present FrameState (R51, R52). -/
theorem runEventWord_eventWord {s : State} {e : Event} (hwf : e.wf s.tw = true) :
    runEventWord (eventWord s.tw e) s = exec (operationOf s.engine.fs e) s := by
  simp only [runEventWord, decodeEventWord_eventWord s e hwf]

/-- The first event of a trace performs the operation that the present FrameState gives it (R51, R52). -/
theorem step_of_facing {s : State} {e : Event} {es : List Event} {rest : List Input} (hwf : e.wf s.tw = true)
    (h : facing s (e :: es) rest) :
    step s = exec (operationOf s.engine.fs e) { s with inputs := traceInputs s.tw es ++ rest } := by
  obtain ⟨hp, hin⟩ := h
  calc step s = runEventWord (eventWord s.tw e) { s with inputs := traceInputs s.tw es ++ rest } := step_of_input hp hin
    _ = _ := runEventWord_eventWord (s := { s with inputs := traceInputs s.tw es ++ rest }) hwf

/-- No operation latches an interrupt, touches an input or writes `TW`, so a trace that is faced stays faced. -/
theorem exec_keeps_facing {i : Instr} {s t : State} {es : List Event} {rest : List Input} (hex : exec i s = .next t)
    (h : facing s es rest) : facing t es rest := by
  obtain ⟨u, hu, htw, hin, -, -, hedge, hcm, -⟩ := exec_next i s
  cases hu.symm.trans hex
  obtain ⟨hp, hs⟩ := h
  exact ⟨by rwa [interruptPending, hedge, hcm], by rw [hin, htw, hs]⟩

/-- The operation that an event performs, once known, is the step; the rest of the trace is faced after it. -/
theorem step_event_of_exec {s t : State} {e : Event} {es : List Event} {rest : List Input} (hwf : e.wf s.tw = true)
    (h : facing s (e :: es) rest)
    (hex : exec (operationOf s.engine.fs e) { s with inputs := traceInputs s.tw es ++ rest } = .next t) :
    step s = .next t ∧ facing t es rest :=
  ⟨(step_of_facing hwf h).trans hex, exec_keeps_facing hex ⟨h.1, rfl⟩⟩

/-! ### Each cell's read event and accumulator, so that both read orders are one argument -/

/-- The event by which the consumer reads a cell (R80, R81). -/
def BufferCell.readEvent : BufferCell → Event
  | .high => .rdhi
  | .low => .rdlo

/-- The accumulator that the publish copies into a cell (R61). -/
def BufferCell.accumulator : BufferCell → EngineState → Byte
  | .high, e => e.hi
  | .low, e => e.lo

/-- Reads have no argument, so only `TW >= 1` is asked of them (R50, R51). -/
theorem readEvent_wf (c : BufferCell) {tw : Nat} (h : 1 ≤ tw) : c.readEvent.wf tw = true := by
  cases c <;> exact decide_eq_true h

/-- A read returns its cell's byte in every FrameState (R54, R80, R81). -/
theorem exec_readEvent (c : BufferCell) (fs : FrameState) (s : State) :
    exec (operationOf fs c.readEvent) s = .next (returnByte (memRead c s) (beginOperation s)) := by
  cases c <;> cases fs <;> rfl

/-- Each published cell reads as its accumulator (R61). -/
theorem memRead_publish (c : BufferCell) (s : State) : memRead c (publish s) = c.accumulator s.engine := by
  obtain ⟨hhigh, hlow, -⟩ := publish_reads s
  cases c with
  | high => exact hhigh
  | low => exact hlow

/-- A read of a trace returns its cell's byte and leaves `TW` and the engine alone (R37). -/
theorem step_readEvent (c : BufferCell) {s : State} {es : List Event} {rest : List Input} (htw : 1 ≤ s.tw)
    (h : facing s (c.readEvent :: es) rest) :
    ∃ t, step s = .next t ∧ facing t es rest ∧ t.tw = s.tw ∧ t.engine = s.engine ∧
      t.results = s.results ++ [memRead c s] := by
  obtain ⟨hstep, hfacing⟩ := step_event_of_exec (readEvent_wf c htw) h (exec_readEvent c _ _)
  exact ⟨_, hstep, hfacing, rfl, rfl, rfl⟩

/-- The EDGE event of a trace in AwaitingStartFalling publishes the accumulators and returns no byte (R61). -/
theorem step_edge_publishes {s : State} {n : Nat} {es : List Event} {rest : List Input} (hfs : s.engine.fs = .asf)
    (hwf : (Event.edge n).wf s.tw = true) (h : facing s (.edge n :: es) rest) :
    ∃ t, step s = .next t ∧ facing t es rest ∧ t.tw = s.tw ∧
      (∀ c, memRead c t = BufferCell.accumulator c s.engine) ∧ t.results = s.results := by
  obtain ⟨hstep, hfacing⟩ := step_event_of_exec hwf h (by rw [hfs]; rfl)
  exact ⟨_, hstep, hfacing, rfl, fun c => memRead_publish c s, rfl⟩

/-! ### The torn read (R41, R124) -/

/-- Two reads of any two cells around a publish: the first returns the old byte of its cell, the second the accumulator
that its cell received. -/
theorem reads_around_publish (first second : BufferCell) {s : State} {n : Nat} {rest : List Input}
    (hfs : s.engine.fs = .asf) (hwf : (Event.edge n).wf s.tw = true)
    (h : facing s [first.readEvent, .edge n, second.readEvent] rest) :
    ∃ t, runSteps 3 s = .next t ∧ t.inputs = rest ∧
      t.results = s.results ++ [memRead first s, second.accumulator s.engine] := by
  have htw : 1 ≤ s.tw := by
    rw [Event.wf, Bool.and_eq_true, decide_eq_true_eq] at hwf
    exact hwf.1
  obtain ⟨u, hu, hfu, htwu, hengu, hresu⟩ := step_readEvent first htw h
  obtain ⟨v, hv, hfv, htwv, hcells, hresv⟩ := step_edge_publishes (hengu ▸ hfs) (htwu ▸ hwf) hfu
  obtain ⟨t, ht, ⟨-, hin⟩, -, -, hrest⟩ := step_readEvent second (by rwa [htwv, htwu]) hfv
  refine ⟨t, ?_, hin, ?_⟩
  · rw [runSteps_succ hu, runSteps_succ hv, runSteps_succ ht, runSteps]
  · rw [hrest, hcells, hresv, hresu, hengu, List.append_assoc, List.singleton_append]

/-- Settles O51: the two read orders are the two ways to take the cells apart. -/
theorem readAcrossPublishIsTorn : Obligations.ReadAcrossPublishIsTorn := by
  intro s n rest hfs hspelled
  have hwf : (Event.edge n).wf s.tw = true := List.all_eq_true.mp hspelled _ (List.mem_singleton_self _)
  exact ⟨reads_around_publish .high .low hfs hwf, reads_around_publish .low .high hfs hwf⟩

end Sys2Proof.Machine

/-! ## Encoding (30_encoding.md): words, fields and operations; what an event or a placed word runs -/

namespace Sys2Proof

/-! ### The words that decode, field by field (R51, R52) -/

/-- The kind and argument fields that decode are those of the event they decode to (R51). -/
theorem decodeEvent_eq_ok_iff {kind arg : Nat} {e : Event} :
    decodeEvent kind arg = .ok e ↔ kind = eventKind e ∧ arg = eventArg e := by
  constructor
  · intro h
    match kind, arg with
    | 0, _ => cases h; exact ⟨rfl, rfl⟩
    | 1, 0 | 1, 1 | 2, 0 | 2, 1 => cases h; exact ⟨rfl, rfl⟩
    | 1, _ + 2 | 2, _ + 2 | _ + 3, _ => cases h
  · rintro ⟨rfl, rfl⟩
    cases e with
    | samp l => cases l <;> rfl
    | _ => rfl

/-- With a FrameState's code in the `fs` field, what is left to decode is the event (R51, R52). -/
theorem decode_of_frameCode {tw w : Nat} {fs : FrameState} (h : frameField tw w = frameCode fs) :
    decode tw w = (decodeEvent (kindField tw w) (argField tw w)).map (operationOf fs) := by
  have hle := frameCode_le fs
  rw [decode, h, if_neg (by omega), frameOfCode_frameCode]

/-- A word that decodes has the code of a FrameState in its `fs` field (R53 (a)). -/
theorem exists_frameCode_of_decode {tw w : Nat} {i : Instr} (h : decode tw w = .ok i) :
    ∃ fs, frameField tw w = frameCode fs := by
  unfold decode at h
  split at h
  · cases h
  · split at h
    · cases h
    · rename_i fs hfs
      exact ⟨fs, frameOfCode_eq_some hfs⟩

/-- The words of an operation are those with its three fields. -/
theorem decode_eq_ok_iff {tw w : Nat} {i : Instr} : decode tw w = .ok i ↔
    frameField tw w = frameCode i.frame ∧ kindField tw w = eventKind i.event ∧ argField tw w = eventArg i.event := by
  constructor
  · intro h
    obtain ⟨fs, hfs⟩ := exists_frameCode_of_decode h
    rw [decode_of_frameCode hfs] at h
    cases hev : decodeEvent (kindField tw w) (argField tw w) with
    | error why => rw [hev] at h; cases h
    | ok e =>
      rw [hev] at h
      cases h
      rw [frame_operationOf, event_operationOf]
      exact ⟨hfs, decodeEvent_eq_ok_iff.mp hev⟩
  · rintro ⟨hfs, hev⟩
    rw [decode_of_frameCode hfs, decodeEvent_eq_ok_iff.mpr hev, Except.map, operationOf_frame_event]

/-- Settles O1: the fields of the encoding are the operation's own. -/
theorem decodeOfEncodeIsIdentity : Obligations.DecodeOfEncodeIsIdentity := by
  intro tw i hwf
  have harg := eventArg_lt (e := i.event) hwf
  have hkind : eventKind i.event < 4 := (eventKind_lt i.event).trans (by decide)
  exact decode_eq_ok_iff.mpr ⟨frameField_of_parts _ _ _ harg hkind, kindField_of_parts _ _ _ harg hkind,
    argField_of_parts _ _ _ harg⟩

/-- An event is well-formed as soon as its argument fits the field (R48, R51). -/
theorem Event.wf_of_eventArg_lt {tw : Nat} {e : Event} (htw : 1 ≤ tw) (h : eventArg e < 2 ^ tw) : e.wf tw = true := by
  cases e with
  | edge n => simpa [Event.wf, htw, eventArg] using h
  | _ => simpa [Event.wf] using htw

/-- Settles O2: a word is put together from its fields, which are those of the operation it decodes to. -/
theorem encodeOfDecodeIsIdentity : Obligations.EncodeOfDecodeIsIdentity := by
  intro tw w i htw h
  obtain ⟨hframe, hkind, harg⟩ := decode_eq_ok_iff.mp h
  constructor
  · rw [encode, dispatchWord, eventWord, ← hframe, ← hkind, ← harg, parts_of_word]
  · refine Event.wf_of_eventArg_lt htw ?_
    rw [← harg]
    exact Nat.mod_lt _ (Nat.two_pow_pos tw)

/-! ### The words that are refused (R53) -/

/-- The `fs` field reaches a code exactly when the word reaches the first word with that code (R51). -/
theorem le_frameField_iff {tw w c : Nat} : c ≤ frameField tw w ↔ c * 2 ^ (tw + 2) ≤ w := by
  rw [frameField, Nat.div_div_eq_div_mul, Nat.le_div_iff_mul_le (by positivity), pow_add]
  rfl

/-- A word wider than `TW + 5` bits (log 16). -/
theorem decode_of_overwide {tw w : Nat} (h : 8 ≤ frameField tw w) : decode tw w = .error .overwideWord := by
  rw [decode, if_pos h]

/-- A reserved `fs` code, whatever the other fields hold (R53 (a); log 29). -/
theorem decode_of_reserved_frame {tw w : Nat} (h5 : 5 ≤ frameField tw w) (h8 : frameField tw w < 8) :
    decode tw w = .error .reservedFrameState := by
  rw [decode, if_neg (by omega), frameOfCode_eq_none.mpr h5]

/-- Every code below 5 is a FrameState's (R47), so only the event can still be refused. -/
theorem decode_of_frame_lt {tw w : Nat} (h : frameField tw w < 5) :
    ∃ fs, decode tw w = (decodeEvent (kindField tw w) (argField tw w)).map (operationOf fs) := by
  cases hfs : frameOfCode (frameField tw w) with
  | none => exact absurd (frameOfCode_eq_none.mp hfs) (by omega)
  | some fs => exact ⟨fs, decode_of_frameCode (frameOfCode_eq_some hfs)⟩

/-- The reserved event kind (R53 (b)). -/
theorem decodeEvent_of_reserved_kind (arg : Nat) : decodeEvent 3 arg = .error .reservedEventKind := rfl

/-- Reserved argument bits of a SAMP or READ word (R53 (c)). -/
theorem decodeEvent_of_reserved_argument {kind arg : Nat} (hkind : kind = 1 ∨ kind = 2) (harg : 2 ≤ arg) :
    decodeEvent kind arg = .error .reservedArgument := by
  obtain ⟨a, rfl⟩ := Nat.exists_eq_add_of_le' harg
  rcases hkind with rfl | rfl <;> rfl

/-- A kind and an argument with nothing reserved are an event's (R51). -/
theorem exists_decodeEvent {kind arg : Nat} (h : kind = 0 ∨ (kind < 3 ∧ arg < 2)) :
    ∃ e, decodeEvent kind arg = .ok e := by
  match kind, arg with
  | 0, _ | 1, 0 | 1, 1 | 2, 0 | 2, 1 => exact ⟨_, rfl⟩
  | 1, _ + 2 | 2, _ + 2 | _ + 3, _ => omega

/-- Settles O3: the `fs` field decides between the first two refusals and the rest, which the event decides. -/
theorem decoderRefusesReservedWords : Obligations.DecoderRefusesReservedWords := by
  intro tw w _
  have hwide : 8 ≤ frameField tw w ↔ 2 ^ (tw + 5) ≤ w := by
    rw [le_frameField_iff, show 8 * 2 ^ (tw + 2) = 2 ^ (tw + 5) by ring]
  have hcode : frameField tw w < 5 ↔ w < 5 * 2 ^ (tw + 2) := by
    rw [← not_le, ← not_le, le_frameField_iff]
  refine ⟨fun h => decode_of_overwide (hwide.mpr h), fun h5 h8 => ?_, fun h hkind => ?_, fun h hkind harg => ?_,
    fun h hev => ?_⟩
  · exact decode_of_reserved_frame (le_frameField_iff.mpr h5) (not_le.mp (mt hwide.mp (not_le.mpr h8)))
  · obtain ⟨fs, hdec⟩ := decode_of_frame_lt (hcode.mpr h)
    rw [hdec, kindField, hkind, decodeEvent_of_reserved_kind]
    rfl
  · obtain ⟨fs, hdec⟩ := decode_of_frame_lt (hcode.mpr h)
    rw [hdec, kindField, argField, decodeEvent_of_reserved_argument hkind harg]
    rfl
  · obtain ⟨fs, hdec⟩ := decode_of_frame_lt (hcode.mpr h)
    obtain ⟨e, he⟩ := exists_decodeEvent (kind := kindField tw w) (arg := argField tw w) (by
      have hkind : kindField tw w < 4 := Nat.mod_lt _ (by decide)
      rcases hev with hzero | ⟨hne, harg⟩
      · exact .inl hzero
      · exact .inr ⟨by unfold kindField at hkind ⊢; omega, harg⟩)
    rw [hdec, he]
    exact ⟨operationOf fs e, rfl⟩

/-- Settles O4: each word is evaluated. -/
theorem vectorWordsDecode : Obligations.VectorWordsDecode :=
  ⟨rfl, rfl, rfl, rfl, rfl, rfl, rfl, rfl, rfl, rfl, rfl, rfl, rfl, rfl, rfl, rfl⟩

end Sys2Proof

namespace Sys2Proof.Machine

/-! ### The step that an event or a placed word selects (R51, R52, R54) -/

/-- Settles O6: the event is a trace of one. -/
theorem eventPerformsTheMappedOperation : Obligations.EventPerformsTheMappedOperation := by
  intro s e rest hwf h
  exact step_of_facing (es := []) hwf h

/-- The part of a dispatch word below its `fs` field is an event word; with the field in front it is the word (R51). -/
theorem dispatchWord_of_frameField {tw w : Nat} {fs : FrameState} (h : frameField tw w = frameCode fs) :
    dispatchWord tw fs (w % (4 * 2 ^ tw)) = w := by
  rw [dispatchWord, ← h, frameField, Nat.div_div_eq_div_mul, Nat.mul_comm (2 ^ tw) 4, Nat.div_add_mod']

/-- A word whose `fs` field is a FrameState's code is placed as that FrameState and the event word below it (log 15). -/
theorem placeDispatchWord_of_frameField {s : State} {w : Nat} {fs : FrameState} (h : frameField s.tw w = frameCode fs) :
    placeDispatchWord s w =
      { writeFs fs (clearEdgePend (clearCmPend s)) with inputs := .event (w % (4 * 2 ^ s.tw)) :: s.inputs } := by
  rw [placeDispatchWord, h, frameOfCode_frameCode]

/-- Settles O7: what is placed spells the word again, no latch goes before it, and the word decodes to `i`. -/
theorem placedWordRunsNext : Obligations.PlacedWordRunsNext := by
  intro s nbits w i hdec
  obtain ⟨hframe, -⟩ := decode_eq_ok_iff.mp hdec
  rw [State.withFetchWord, placeDispatchWord_of_frameField hframe]
  have hspelled : decode s.tw (dispatchWord s.tw i.frame ((w % 2 ^ nbits) % (4 * 2 ^ s.tw))) = .ok i := by
    rw [dispatchWord_of_frameField hframe, hdec]
  have hlt : (w % 2 ^ nbits) % (4 * 2 ^ s.tw) < 4 * 2 ^ s.tw := Nat.mod_lt _ (by positivity)
  exact stepRunsTheDecodedWord _ _ s.inputs i rfl rfl hlt hspelled

/-! ### The ignored count (R48) -/

/-- Settles O22: the count occurs in none of the four meanings. -/
theorem countIgnoredOutsideAsr : Obligations.CountIgnoredOutsideAsr :=
  fun _ _ _ => ⟨rfl, rfl, rfl, rfl⟩

end Sys2Proof.Machine

/-! ## Traces of a frame (30_encoding.md R55, R56): how samples assemble into bytes, and how the bytes are read back -/

namespace Sys2Proof.Machine

/-! ### The events of a trace, one after the other

`EventStep` says what the step of one event leaves. `runSteps_trace` is the induction over a trace: what holds before the
first event and is kept by every event holds after the last. -/

/-- The bytes that an event returns to the consumer (R80, R81). -/
def returnedBytes (e : EngineState) : Event → List Byte
  | .edge _ => []
  | .samp _ => []
  | .rdhi => [readCell e.out 0]
  | .rdlo => [readCell e.out 1]

/-- The events that return a byte (R50). -/
def isRead : Event → Bool
  | .edge _ => false
  | .samp _ => false
  | .rdhi => true
  | .rdlo => true

theorem returnedBytes_of_not_isRead {ev : Event} (h : isRead ev = false) (e : EngineState) :
    returnedBytes e ev = [] := by
  cases ev with
  | edge n => rfl
  | samp b => rfl
  | rdhi => cases h
  | rdlo => cases h

/-- What the step of the event `ev` makes of a state. -/
structure EventStep (s : State) (ev : Event) (t : State) : Prop where
  tw : t.tw = s.tw
  effect : OperationEffect s.tw s.engine s.env ev t.engine t.env
  results : t.results = s.results ++ returnedBytes s.engine ev

/-- An operation adds to the trace's observation the bytes that its event returns, and no others (R135). -/
theorem exec_results {i : Instr} {s t : State} (h : exec i s = .next t) :
    t.results = s.results ++ returnedBytes s.engine i.event := by
  cases i with
  | sampRhb lvl => cases h; simp [endOfByte_eq, placeHighBit_eq, takeSample, sampleEntry_eq, returnedBytes, Instr.event]
  | sampRlb lvl => cases h; simp [endOfByte_eq, placeLowBit_eq, takeSample, sampleEntry_eq, returnedBytes, Instr.event]
  | rdhi fs => cases h; rfl
  | rdlo fs => cases h; rfl
  | _ => cases h; simp [publish_eq, armWindow_eq, sampleEntry_eq, returnedBytes, Instr.event]

/-- The first event of a trace is accepted, and the rest of the trace is faced after it (R68, R134). -/
theorem step_event {s : State} {ev : Event} {es : List Event} {rest : List Input} (hwf : ev.wf s.tw = true)
    (h : facing s (ev :: es) rest) : ∃ t, step s = .next t ∧ facing t es rest ∧ EventStep s ev t := by
  obtain ⟨t, hex, htw, -⟩ :=
    exec_next (operationOf s.engine.fs ev) { s with inputs := traceInputs s.tw es ++ rest }
  obtain ⟨hstep, hfacing⟩ := step_event_of_exec hwf h hex
  refine ⟨t, hstep, hfacing, htw, exec_effect (s := { s with inputs := traceInputs s.tw es ++ rest }) hex, ?_⟩
  have hres := exec_results hex
  rwa [event_operationOf] at hres

/-- The trace `es` runs to its end: the trace `later` is faced next, and what every event keeps holds of the whole of
`es`. -/
theorem runSteps_trace {P : List Event → State → Prop} {s : State} {es later : List Event} {rest : List Input}
    (hspelled : spelled s.tw es) (h : facing s (es ++ later) rest) (hstart : P [] s)
    (hkeep : ∀ done ev u v, P done u → EventStep u ev v → P (done ++ [ev]) v) :
    ∃ t, runSteps es.length s = .next t ∧ facing t later rest ∧ t.tw = s.tw ∧ P es t := by
  induction es using List.reverseRecOn generalizing later with
  | nil => exact ⟨s, rfl, h, rfl, hstart⟩
  | append_singleton es ev ih =>
    obtain ⟨hes, hev⟩ : spelled s.tw es ∧ ev.wf s.tw = true := by simpa [spelled] using hspelled
    obtain ⟨u, hrun, hfu, htwu, hPu⟩ := ih (later := ev :: later) hes (by simpa using h)
    obtain ⟨t, hstep, hft, hevent⟩ := step_event (htwu ▸ hev) hfu
    refine ⟨t, ?_, hft, hevent.tw.trans htwu, hkeep _ _ _ _ hPu hevent⟩
    rw [List.length_append, runSteps_add hrun]
    exact runSteps_succ hstep

/-! ### The samples of a frame, assembled one by one (R45, R46, R76) -/

/-- FrameState after `n` samples of a frame: nine belong to the high byte and ten to the low one (R46). -/
def samplePhase (n : Nat) : FrameState := if n < 9 then .rhb else if n < 19 then .rlb else .asf

/-- The cursor after `n` samples of a frame: what is left of the byte's budget (R26). -/
def sampleCursor (n : Nat) : Nat := if n < 9 then 9 - n else if n < 19 then 19 - n else 9

theorem samplePhase_eq_rhb {n : Nat} : samplePhase n = .rhb ↔ n < 9 := by
  unfold samplePhase; split_ifs <;> simp <;> omega

theorem samplePhase_eq_rlb {n : Nat} : samplePhase n = .rlb ↔ 9 ≤ n ∧ n < 19 := by
  unfold samplePhase; split_ifs <;> simp <;> omega

theorem insideByte_samplePhase {n : Nat} : insideByte (samplePhase n) = true ↔ n < 19 := by
  unfold samplePhase; split_ifs <;> simp [insideByte] <;> omega

/-- The engine `e` after the samples `ls` of a frame that found the accumulators, the strobe and the buffer of `e₀`:
samples 1 to 8 are or-ed into `hi` and samples 11 to 18 into `lo`, most significant first. -/
structure Assembled (e₀ : EngineState) (ls : List Bool) (e : EngineState) : Prop where
  fs : e.fs = samplePhase ls.length
  cur : e.cur.toNat = sampleCursor ls.length
  strobe : e.strobe = e₀.strobe
  out : e.out = e₀.out
  hi : ∀ k, k < 8 → e.hi.getLsbD k = (e₀.hi.getLsbD k || ls.getD (7 - k) false)
  lo : ∀ k, k < 8 → e.lo.getLsbD k = (e₀.lo.getLsbD k || ls.getD (17 - k) false)

/-- One level more in a list shows at its own place only. -/
theorem getD_append_level (ls : List Bool) (b : Bool) (i : Nat) :
    (ls ++ [b]).getD i false = (ls.getD i false || (b && decide (ls.length = i))) := by
  rcases Nat.lt_trichotomy i ls.length with h | rfl | h
  · rw [List.getD_append _ _ _ _ h]; simp [Nat.ne_of_gt h]
  · simp
  · rw [List.getD_eq_default _ _ (by simp; omega), List.getD_eq_default _ _ h.le]; simp [Nat.ne_of_lt h]

/-- A level at another place than `i` does not show at `i`. -/
theorem getD_append_level_of_ne {ls : List Bool} {i : Nat} (b : Bool) (h : ls.length ≠ i) :
    (ls ++ [b]).getD i false = ls.getD i false := by
  rw [getD_append_level, decide_eq_false h, Bool.and_false, Bool.or_false]

/-- A sample that sets a bit sets the one below the new cursor (R71, R72, R74). -/
theorem sampledByte_getLsbD (sets : Bool) (acc : Byte) (c : Cursor) {k : Nat} (hk : k < 8) :
    (sampledByte sets acc c).getLsbD k = (acc.getLsbD k || (sets && decide (k = bitIndex c))) := by
  cases sets with
  | false => simp [sampledByte]
  | true =>
    have hlow : decide (k = bitIndex c) = true → bitIndex c ≤ 7 := fun h => by rw [← of_decide_eq_true h]; omega
    rw [sampledByte, cond_true, setbit_getLsbD, Bool.true_and]
    cases hbit : decide (k = bitIndex c) with
    | false => simp
    | true => simp [hlow hbit]

/-- The cursor above 0 that selects bit `k` is `k + 1` (R71, R72). -/
theorem eq_bitIndex_iff {c : Cursor} (hc : c ≠ 0) (k : Nat) : k = bitIndex c ↔ c.toNat = k + 1 := by
  have hpos : c.toNat ≠ 0 := fun h => hc (BitVec.eq_of_toNat_eq h)
  unfold bitIndex
  omega

/-- A high-byte sample with a new cursor above 0 places a high level in the bit below it (R71). -/
theorem sampledByte_high (lvl : Bool) (acc : Byte) {c : Cursor} (hc : c ≠ 0) {k : Nat} (hk : k < 8) :
    (sampledByte (setsHighBit lvl c) acc c).getLsbD k = (acc.getLsbD k || (lvl && decide (c.toNat = k + 1))) := by
  rw [sampledByte_getLsbD _ _ _ hk]
  simp only [setsHighBit, hc, eq_bitIndex_iff hc, ne_eq, not_false_eq_true, decide_true, Bool.and_true]

/-- A low-byte sample does the same: the placeholder, with a new cursor of 9, has no bit below it (R72). -/
theorem sampledByte_low (lvl : Bool) (acc : Byte) {c : Cursor} (hc : c ≠ 0) {k : Nat} (hk : k < 8) :
    (sampledByte (setsLowBit lvl c) acc c).getLsbD k = (acc.getLsbD k || (lvl && decide (c.toNat = k + 1))) := by
  have hplace : (decide (c.toNat < 9) && decide (c.toNat = k + 1)) = decide (c.toNat = k + 1) := by
    rw [← Bool.decide_and]
    exact decide_eq_decide.mpr (and_iff_right_of_imp fun h => by omega)
  rw [sampledByte_getLsbD _ _ _ hk]
  simp only [setsLowBit, hc, eq_bitIndex_iff hc, ne_eq, not_false_eq_true, decide_true, Bool.and_true, Bool.and_assoc,
    hplace]

/-- The first window of a frame opens with no sample taken (R63). -/
theorem Assembled.of_firstWindow (e : EngineState) : Assembled e [] { e with fs := .rhb, cur := highBudget } :=
  ⟨rfl, rfl, rfl, rfl, by simp, by simp⟩

section
variable {tw : Nat} {e₀ e e' : EngineState} {v v' : EnvState} {ls : List Bool} (a : Assembled e₀ ls e)
include a

/-- Inside the high byte fewer than nine samples have been taken, and the next new cursor is known (R71, R75). -/
theorem Assembled.inside_high (hfs : e.fs = .rhb) : ls.length < 9 ∧ (countSample e.cur).toNat = 8 - ls.length := by
  have hlen := samplePhase_eq_rhb.mp (a.fs.symm.trans hfs)
  rw [countSample_toNat, a.cur, sampleCursor, if_pos hlen]
  omega

/-- Inside the low byte nine to eighteen samples have been taken, and the next new cursor is known (R72, R75). -/
theorem Assembled.inside_low (hfs : e.fs = .rlb) :
    9 ≤ ls.length ∧ ls.length < 19 ∧ (countSample e.cur).toNat = 18 - ls.length := by
  obtain ⟨hge, hlt⟩ := samplePhase_eq_rlb.mp (a.fs.symm.trans hfs)
  rw [countSample_toNat, a.cur, sampleCursor, if_neg (by omega), if_pos hlt]
  omega

/-- From sample 9 on a level is none of `hi`'s. -/
theorem Assembled.hi_kept (lvl : Bool) (hlen : 8 ≤ ls.length) {k : Nat} (hk : k < 8) :
    e.hi.getLsbD k = (e₀.hi.getLsbD k || (ls ++ [lvl]).getD (7 - k) false) := by
  rw [getD_append_level_of_ne lvl (by omega)]
  exact a.hi k hk

/-- Before sample 11, and after sample 18, a level is none of `lo`'s. -/
theorem Assembled.lo_kept (lvl : Bool) (hlen : ls.length < 10 ∨ 18 ≤ ls.length) {k : Nat} (hk : k < 8) :
    e.lo.getLsbD k = (e₀.lo.getLsbD k || (ls ++ [lvl]).getD (17 - k) false) := by
  rw [getD_append_level_of_ne lvl (by omega)]
  exact a.lo k hk

/-- Samples 1 to 8 go to `hi`. -/
theorem Assembled.after_sampleHigh (lvl : Bool) (hfs : e.fs = .rhb) (hcur : countSample e.cur ≠ 0) :
    Assembled e₀ (ls ++ [lvl]) { e with
      cur := countSample e.cur, hi := sampledByte (setsHighBit lvl (countSample e.cur)) e.hi (countSample e.cur) } := by
  obtain ⟨hlen, hcount⟩ := a.inside_high hfs
  have hpos : (countSample e.cur).toNat ≠ 0 := fun h => hcur (BitVec.eq_of_toNat_eq h)
  have hlen' : (ls ++ [lvl]).length < 9 := by rw [List.length_append, List.length_singleton]; omega
  refine ⟨hfs.trans (samplePhase_eq_rhb.mpr hlen').symm, ?_, a.strobe, a.out, fun k hk => ?_,
    fun _ => a.lo_kept lvl (by omega)⟩
  · rw [sampleCursor, if_pos hlen', hcount, List.length_append, List.length_singleton]
    omega
  · have hplace : 8 - ls.length = k + 1 ↔ ls.length = 7 - k := by omega
    simp only [sampledByte_high lvl e.hi hcur hk, a.hi k hk, getD_append_level, hcount, hplace, Bool.or_assoc]

/-- Sample 9, the parity of the high byte, goes nowhere (R77). -/
theorem Assembled.after_endHigh (lvl : Bool) (hfs : e.fs = .rhb) (hcur : countSample e.cur = 0) :
    Assembled e₀ (ls ++ [lvl]) { e with fs := .rlb, cur := lowBudget } := by
  obtain ⟨hlen, hcount⟩ := a.inside_high hfs
  have hlen8 : ls.length = 8 := by rw [hcur, show (0 : Cursor).toNat = 0 from rfl] at hcount; omega
  have hlen9 : (ls ++ [lvl]).length = 9 := by rw [List.length_append, hlen8]; rfl
  refine ⟨by rw [hlen9]; rfl, by rw [hlen9]; rfl, a.strobe, a.out, fun _ => a.hi_kept lvl (by omega),
    fun _ => a.lo_kept lvl (by omega)⟩

/-- Sample 10, the placeholder, goes nowhere, and samples 11 to 18 go to `lo` (R72, R77). -/
theorem Assembled.after_sampleLow (lvl : Bool) (hfs : e.fs = .rlb) (hcur : countSample e.cur ≠ 0) :
    Assembled e₀ (ls ++ [lvl]) { e with
      cur := countSample e.cur, lo := sampledByte (setsLowBit lvl (countSample e.cur)) e.lo (countSample e.cur) } := by
  obtain ⟨hge, hlt, hcount⟩ := a.inside_low hfs
  have hpos : (countSample e.cur).toNat ≠ 0 := fun h => hcur (BitVec.eq_of_toNat_eq h)
  have hlen' : (ls ++ [lvl]).length = ls.length + 1 := by rw [List.length_append, List.length_singleton]
  refine ⟨hfs.trans (samplePhase_eq_rlb.mpr (by omega)).symm, ?_, a.strobe, a.out,
    fun _ => a.hi_kept lvl (by omega), fun k hk => ?_⟩
  · rw [sampleCursor, if_neg (by omega), if_pos (by omega), hcount, hlen']
    omega
  · have hplace : 18 - ls.length = k + 1 ↔ ls.length = 17 - k := by omega
    simp only [sampledByte_low lvl e.lo hcur hk, a.lo k hk, getD_append_level, hcount, hplace, Bool.or_assoc]

/-- Sample 19, the parity of the low byte, goes nowhere and ends the frame (R72, R77). -/
theorem Assembled.after_endLow (lvl : Bool) (hfs : e.fs = .rlb) (hcur : countSample e.cur = 0) :
    Assembled e₀ (ls ++ [lvl]) { e with fs := .asf, cur := highBudget } := by
  obtain ⟨hge, hlt, hcount⟩ := a.inside_low hfs
  have hlen18 : ls.length = 18 := by rw [hcur, show (0 : Cursor).toNat = 0 from rfl] at hcount; omega
  have hlen19 : (ls ++ [lvl]).length = 19 := by rw [List.length_append, hlen18]; rfl
  refine ⟨by rw [hlen19]; rfl, by rw [hlen19]; rfl, a.strobe, a.out, fun _ => a.hi_kept lvl (by omega),
    fun _ => a.lo_kept lvl (by omega)⟩

/-- Before the 19th sample every event is inside a byte: a SAMP is assembled, an EDGE or a read changes nothing (R76). -/
theorem Assembled.after_event {ev : Event} (hopen : ls.length < 19) (h : OperationEffect tw e v ev e' v') :
    Assembled e₀ (ls ++ sampleLevels [ev]) e' := by
  have hinside : insideByte e.fs = true := a.fs ▸ insideByte_samplePhase.mpr hopen
  cases h with
  | publish cnt hfs => rw [hfs] at hinside; cases hinside
  | capture cnt hfs => rw [hfs] at hinside; cases hinside
  | firstWindow cnt hfs => rw [hfs] at hinside; cases hinside
  | housekeep lvl hfs => rw [hfs] at hinside; cases hinside
  | sampleHigh lvl hfs hcur => exact a.after_sampleHigh lvl hfs hcur
  | endHigh lvl hfs hcur => exact a.after_endHigh lvl hfs hcur
  | sampleLow lvl hfs hcur => exact a.after_sampleLow lvl hfs hcur
  | endLow lvl hfs hcur => exact a.after_endLow lvl hfs hcur
  | nextWindow cnt hfs => exact (List.append_nil ls).symm ▸ a
  | readHigh => exact (List.append_nil ls).symm ▸ a
  | readLow => exact (List.append_nil ls).symm ▸ a

end

/-- The samples of two traces in a row. -/
theorem sampleLevels_append (es es' : List Event) : sampleLevels (es ++ es') = sampleLevels es ++ sampleLevels es' := by
  induction es with
  | nil => rfl
  | cons e es ih => cases e <;> simp [sampleLevels, ih]

theorem sampleCount_append (es es' : List Event) : sampleCount (es ++ es') = sampleCount es + sampleCount es' := by
  rw [sampleCount, sampleLevels_append, List.length_append, sampleCount, sampleCount]

/-- Without its last event a trace has no more samples. -/
theorem sampleCount_dropLast_le (es : List Event) : sampleCount es.dropLast ≤ sampleCount es := by
  cases es using List.reverseRecOn with
  | nil => exact le_rfl
  | append_singleton es ev =>
    rw [List.dropLast_concat, sampleCount_append]
    exact Nat.le_add_right _ _

section
variable {tw n : Nat} {e e' : EngineState} {v v' : EnvState} (h : OperationEffect tw e v (.edge n) e' v')
include h

/-- The start edge: the accumulators are published and cleared (R61). -/
theorem OperationEffect.edge_of_asf (hfs : e.fs = .asf) : e'.fs = .asr ∧ e'.hi = 0 ∧ e'.lo = 0 ∧
    readCell e'.out 0 = e.hi ∧ readCell e'.out 1 = e.lo := by
  cases h with
  | publish cnt _ =>
    refine ⟨rfl, rfl, rfl, ?_, readCell_writeCell_same _ _ _⟩
    rw [readCell_writeCell_other _ _ (by decide), readCell_writeCell_same]
  | capture cnt hasr => cases hfs.symm.trans hasr
  | firstWindow cnt hacq => cases hfs.symm.trans hacq
  | nextWindow cnt hin => rw [hfs] at hin; cases hin

/-- The end of the start bit's low phase: the count becomes the strobe (R62). -/
theorem OperationEffect.edge_of_asr (hfs : e.fs = .asr) : e' = { e with fs := .acq, strobe := truncTW tw n } := by
  cases h with
  | publish cnt hasf => cases hfs.symm.trans hasf
  | capture cnt _ => rfl
  | firstWindow cnt hacq => cases hfs.symm.trans hacq
  | nextWindow cnt hin => rw [hfs] at hin; cases hin

/-- The first edge of a frame's data: the high byte's budget is loaded (R63). -/
theorem OperationEffect.edge_of_acq (hfs : e.fs = .acq) : e' = { e with fs := .rhb, cur := highBudget } := by
  cases h with
  | publish cnt hasf => cases hfs.symm.trans hasf
  | capture cnt hasr => cases hfs.symm.trans hasr
  | firstWindow cnt _ => rfl
  | nextWindow cnt hin => rw [hfs] at hin; cases hin

end

/-- What every event of the trace `done`, begun at the opening of a frame's first window, keeps: the samples so far are
assembled unless an event came after the 19th, and without a read no byte is returned. -/
structure AssembledTrace (e₀ : EngineState) (observed : List Byte) (done : List Event) (s : State) : Prop where
  engine : sampleCount done.dropLast < 19 → Assembled e₀ (sampleLevels done) s.engine
  results : done.any isRead = false → s.results = observed

theorem AssembledTrace.after_event {e₀ : EngineState} {observed : List Byte} {done : List Event} {ev : Event}
    {s t : State} (a : AssembledTrace e₀ observed done s) (h : EventStep s ev t) :
    AssembledTrace e₀ observed (done ++ [ev]) t := by
  refine ⟨fun hopen => ?_, fun hsilent => ?_⟩
  · rw [List.dropLast_concat] at hopen
    have hbefore : sampleCount done.dropLast < 19 := (sampleCount_dropLast_le done).trans_lt hopen
    rw [sampleLevels_append]
    exact (a.engine hbefore).after_event hopen h.effect
  · obtain ⟨hdone, hev⟩ : done.any isRead = false ∧ isRead ev = false := by
      simpa only [List.any_append, List.any_cons, List.any_nil, Bool.or_false, Bool.or_eq_false_iff] using hsilent
    rw [h.results, returnedBytes_of_not_isRead hev, List.append_nil, a.results hdone]

/-- From ACQ, an EDGE and then any events of which none comes after the 19th sample: the samples are assembled. -/
theorem runSteps_assembles {s : State} {n : Nat} {es later : List Event} {rest : List Input} (hfs : s.engine.fs = .acq)
    (hspelled : spelled s.tw (.edge n :: es)) (h : facing s (.edge n :: (es ++ later)) rest)
    (hopen : sampleCount es.dropLast < 19) :
    ∃ t, runSteps (es.length + 1) s = .next t ∧ facing t later rest ∧ t.tw = s.tw ∧
      Assembled s.engine (sampleLevels es) t.engine ∧ (es.any isRead = false → t.results = s.results) := by
  obtain ⟨hedge, hes⟩ : (Event.edge n).wf s.tw = true ∧ spelled s.tw es := by
    simpa only [spelled, List.all_cons, Bool.and_eq_true] using hspelled
  obtain ⟨u, hu, hfu, hevent⟩ := step_event hedge h
  have hstart : AssembledTrace s.engine s.results [] u :=
    ⟨fun _ => hevent.effect.edge_of_acq hfs ▸ .of_firstWindow s.engine,
      fun _ => hevent.results.trans (List.append_nil _)⟩
  obtain ⟨t, hrun, hft, htw, htrace⟩ :=
    runSteps_trace (hevent.tw ▸ hes) hfu hstart fun _ _ _ _ a hstep => a.after_event hstep
  exact ⟨t, (runSteps_succ hu).trans hrun, hft, htw.trans hevent.tw, htrace.engine hopen, htrace.results⟩

/-- Settles O48: the samples are assembled, and after 19 of them the frame is over. -/
theorem samplesAssembleIntoBytes : Obligations.SamplesAssembleIntoBytes := by
  intro s n mid b rest hfs hspelled hface hcount
  have hopen : sampleCount (mid ++ [Event.samp b]).dropLast < 19 := by
    rw [sampleCount_append, show sampleCount [Event.samp b] = 1 from rfl] at hcount
    rw [List.dropLast_concat]
    omega
  obtain ⟨t, hrun, ⟨-, hin⟩, -, a, -⟩ :=
    runSteps_assembles (later := []) hfs hspelled (by rwa [List.append_nil]) hopen
  have hlen : (sampleLevels (mid ++ [.samp b])).length = 19 := hcount
  rw [List.length_append, List.length_singleton] at hrun
  refine ⟨t, hrun, hin, ?_, ?_, a.strobe, a.out, fun k hk => ⟨a.hi k hk, a.lo k hk⟩⟩
  · rw [a.fs, hlen]
    rfl
  · refine BitVec.eq_of_toNat_eq ?_
    rw [a.cur, hlen]
    rfl

/-! ### A whole frame, and its bytes read back (R46, R61, R86) -/

/-- The events of a frame after the first falling edge of its data: slots 1 to 19 without that edge (R45, R56). -/
def dataEvents (vh : Byte) (ph x : Bool) (vl : Byte) (pl : Bool) : List Event :=
  (highByteSlots vh ph ++ lowByteSlots x vl pl).tail

/-- A frame is its start slot, the first falling edge of its data, and the rest. -/
theorem frame_eq (n : Nat) (vh : Byte) (ph x : Bool) (vl : Byte) (pl : Bool) :
    frame n vh ph x vl pl = .edge 0 :: .edge n :: .edge 0 :: dataEvents vh ph x vl pl := rfl

/-- The levels of a frame: the high byte and its parity, the placeholder, the low byte and its parity (R46). -/
theorem sampleLevels_dataEvents (vh : Byte) (ph x : Bool) (vl : Byte) (pl : Bool) :
    sampleLevels (dataEvents vh ph x vl pl) = bitsMsbFirst vh ++ [ph, x] ++ bitsMsbFirst vl ++ [pl] := rfl

/-- The last event of a frame is its 19th sample (R45). -/
theorem sampleCount_dataEvents (vh : Byte) (ph x : Bool) (vl : Byte) (pl : Bool) :
    sampleCount (dataEvents vh ph x vl pl).dropLast = 18 := rfl

/-- A frame has no read in it (R45). -/
theorem dataEvents_any_isRead (vh : Byte) (ph x : Bool) (vl : Byte) (pl : Bool) :
    (dataEvents vh ph x vl pl).any isRead = false := rfl

/-- Levels 1 to 8 of a frame are the bits of the high byte, the most significant first (R33, R46). -/
theorem highLevel_eq (vh : Byte) (ph x : Bool) (vl : Byte) (pl : Bool) {k : Nat} (hk : k < 8) :
    (sampleLevels (dataEvents vh ph x vl pl)).getD (7 - k) false = vh.getLsbD k := by
  rw [sampleLevels_dataEvents]
  interval_cases k <;> rfl

/-- Levels 11 to 18 of a frame are the bits of the low byte, the most significant first (R33, R46). -/
theorem lowLevel_eq (vh : Byte) (ph x : Bool) (vl : Byte) (pl : Bool) {k : Nat} (hk : k < 8) :
    (sampleLevels (dataEvents vh ph x vl pl)).getD (17 - k) false = vl.getLsbD k := by
  rw [sampleLevels_dataEvents]
  interval_cases k <;> rfl

/-- A frame's samples, assembled into cleared accumulators, are its data bytes (R46). -/
theorem Assembled.data_bytes {e₀ e : EngineState} {vh vl : Byte} {ph x pl : Bool}
    (a : Assembled e₀ (sampleLevels (dataEvents vh ph x vl pl)) e) (hhi : e₀.hi = 0) (hlo : e₀.lo = 0) :
    e.hi = vh ∧ e.lo = vl := by
  constructor <;> refine BitVec.eq_of_getLsbD_eq fun k hk => ?_
  · rw [a.hi k hk, hhi, highLevel_eq vh ph x vl pl hk]
    simp
  · rw [a.lo k hk, hlo, lowLevel_eq vh ph x vl pl hk]
    simp

/-- One whole frame from ASF: its bytes are in the accumulators and the previous pair is published (R45, R46, R61). -/
theorem runSteps_frame {s : State} {n : Nat} {vh vl : Byte} {ph x pl : Bool} {later : List Event} {rest : List Input}
    (hfs : s.engine.fs = .asf) (hspelled : spelled s.tw (frame n vh ph x vl pl))
    (h : facing s (frame n vh ph x vl pl ++ later) rest) :
    ∃ u, runSteps 40 s = .next u ∧ facing u later rest ∧ u.tw = s.tw ∧ u.results = s.results ∧ u.engine.fs = .asf ∧
      u.engine.strobe = n ∧ u.engine.hi = vh ∧ u.engine.lo = vl ∧
      readCell u.engine.out 0 = s.engine.hi ∧ readCell u.engine.out 1 = s.engine.lo := by
  rw [frame_eq] at h hspelled
  obtain ⟨hwf0, hwfn, hdata⟩ : (Event.edge 0).wf s.tw = true ∧ (Event.edge n).wf s.tw = true ∧
      spelled s.tw (.edge 0 :: dataEvents vh ph x vl pl) := by
    simpa only [spelled, List.all_cons, Bool.and_eq_true] using hspelled
  obtain ⟨a, ha, hfa, hpublish⟩ := step_event hwf0 h
  obtain ⟨hasr, hhi, hlo, hout0, hout1⟩ := hpublish.effect.edge_of_asf hfs
  obtain ⟨b, hb, hfb, hcapture⟩ := step_event (hpublish.tw ▸ hwfn) hfa
  have hengine := hcapture.effect.edge_of_asr hasr
  have htwb : b.tw = s.tw := hcapture.tw.trans hpublish.tw
  obtain ⟨u, hu, hfu, htwu, hasm, hsilent⟩ :=
    runSteps_assembles (n := 0) (es := dataEvents vh ph x vl pl) (by rw [hengine]) (htwb ▸ hdata) hfb
      (by rw [sampleCount_dataEvents]; decide)
  obtain ⟨hvh, hvl⟩ := hasm.data_bytes (by rw [hengine]; exact hhi) (by rw [hengine]; exact hlo)
  have hbuffer : u.engine.out = a.engine.out := by rw [hasm.out, hengine]
  refine ⟨u, ?_, hfu, htwu.trans htwb, ?_, hasm.fs, ?_, hvh, hvl, by rw [hbuffer, hout0], by rw [hbuffer, hout1]⟩
  · calc runSteps 40 s = runSteps 39 a := runSteps_succ ha
      _ = runSteps 38 b := runSteps_succ hb
      _ = .next u := hu
  · rw [hsilent (dataEvents_any_isRead vh ph x vl pl), hcapture.results, hpublish.results]
    simp [returnedBytes]
  · rw [hasm.strobe, hengine, hpublish.tw]
    exact truncTW_of_lt (eventArg_lt hwfn)

/-- The next start edge and the two reads return what the accumulators held (R61, R80, R81, R86). -/
theorem runSteps_readBack {s : State} {m : Nat} {rest : List Input} (hfs : s.engine.fs = .asf)
    (hwf : (Event.edge m).wf s.tw = true) (htw : 1 ≤ s.tw) (h : facing s (.edge m :: rd16) rest) :
    ∃ t, runSteps 3 s = .next t ∧ t.engine.fs = .asr ∧
      t.results = s.results ++ [s.engine.hi, s.engine.lo] ∧ t.inputs = rest := by
  obtain ⟨a, ha, hfa, hpublish⟩ := step_event hwf h
  obtain ⟨hasr, -, -, hout0, hout1⟩ := hpublish.effect.edge_of_asf hfs
  have htwa : 1 ≤ a.tw := hpublish.tw ▸ htw
  obtain ⟨b, hb, hfb, htwb, hengb, hresb⟩ := step_readEvent .high htwa hfa
  obtain ⟨t, ht, hft, -, hengt, hrest⟩ := step_readEvent .low (htwb ▸ htwa) hfb
  refine ⟨t, ?_, by rw [hengt, hengb, hasr], ?_, hft.2⟩
  · calc runSteps 3 s = runSteps 2 a := runSteps_succ ha
      _ = runSteps 1 b := runSteps_succ hb
      _ = .next t := runSteps_succ ht
  · have hhigh : memRead .high a = s.engine.hi := hout0
    have hlow : memRead .low b = s.engine.lo := by rw [memRead, hengb]; exact hout1
    rw [hrest, hresb, hpublish.results, hhigh, hlow]
    simp [returnedBytes]

/-- Settles O49: the frame leaves its bytes in the accumulators, and the next start edge publishes them. -/
theorem frameIsReadBackAfterNextStart : Obligations.FrameIsReadBackAfterNextStart := by
  intro s n m vh vl ph x pl rest hfs hspelled hface
  obtain ⟨hframe, hwfm, htw⟩ : spelled s.tw (frame n vh ph x vl pl) ∧ (Event.edge m).wf s.tw = true ∧ 1 ≤ s.tw := by
    simpa [spelled, List.all_append, rd16, Event.wf] using hspelled
  obtain ⟨u, hu, hfu, htwu, hresu, hfsu, hstrobe, hhi, hlo, hout⟩ := runSteps_frame hfs hframe hface
  obtain ⟨t, ht, hfst, hrest, hin⟩ := runSteps_readBack hfsu (htwu ▸ hwfm) (htwu ▸ htw) hfu
  refine ⟨⟨u, hu, hfsu, hstrobe, hhi, hlo, hout⟩, t, (runSteps_add hu).trans ht, hfst, ?_, hin⟩
  rw [hrest, hresu, hhi, hlo]

end Sys2Proof.Machine

/-! ## Line edge (40_line_edge.md): the five EDGE operations, a sample window and the strobe measurement -/

namespace Sys2Proof.Machine

/-! ### What the EDGE operations leave (R61 to R65) -/

/-- EDGE.ASF: the whole next state; the buffer is the publish's (R61). -/
theorem exec_edgeAsf (cnt : Nat) (s : State) : exec (.edgeAsf cnt) s = .next { s with
    engine := { s.engine with fs := .asr, hi := 0, lo := 0, out := (publish s).engine.out }
    env := { s.env with edgesel := .rising, tmode := .freeRunning }
    cmds := [.selectRisingEdge, .startFreeRunning]
    rdData := none } := rfl

/-- EDGE.ASR: the whole next state; the count is cut to `TW` bits (R12, R62). -/
theorem exec_edgeAsr (cnt : Nat) (s : State) : exec (.edgeAsr cnt) s = .next { s with
    engine := { s.engine with fs := .acq, strobe := truncTW s.tw cnt }
    env := { s.env with edgesel := .falling, tmode := .stopped }
    cmds := [.stop, .selectFallingEdge]
    rdData := none } := rfl

/-- A handler that only arms the sample window, as EDGE.RHB and EDGE.RLB do: the whole next state, when the strobe fits
`TW` bits and so survives as the period (R64, R65). -/
theorem armWindow_beginOperation {s : State} (h : s.engine.strobe < 2 ^ s.tw) : armWindow (beginOperation s) = { s with
    env := { s.env with tcnt := 0, tper := s.engine.strobe, tmode := .periodic }
    cmds := [.clearCount, .startPeriodic s.engine.strobe]
    rdData := none } := by
  simp only [armWindow_eq, beginOperation_engine, beginOperation_tw, truncTW_of_lt h]
  rfl

/-- Settles O12: the next state is known, and the publish says how its buffer reads. -/
theorem edgeAsfPublishesAndClears : Obligations.EdgeAsfPublishesAndClears :=
  fun cnt s => ⟨_, exec_edgeAsf cnt s, rfl, publish_reads s⟩

/-- Settles O13: a count that fits its field is stored as it is. -/
theorem edgeAsrCapturesStrobe : Obligations.EdgeAsrCapturesStrobe := by
  intro cnt s hwf
  have hcnt : cnt < 2 ^ s.tw := eventArg_lt hwf
  rw [exec_edgeAsr, truncTW_of_lt hcnt]

/-- Settles O14: the window is armed, then the cursor and FrameState are written. -/
theorem edgeAcqArmsFirstSample : Obligations.EdgeAcqArmsFirstSample := by
  intro cnt s h
  calc exec (.edgeAcq cnt) s
      = .next (writeFs .rhb (writeCur highBudget (armWindow (beginOperation s)))) := rfl
    _ = _ := by rw [armWindow_beginOperation h]; rfl

/-- Settles O15: the operation arms the window and does nothing else. -/
theorem edgeRhbRearmsWindow : Obligations.EdgeRhbRearmsWindow :=
  fun _ _ h => congrArg Host.Outcome.next (armWindow_beginOperation h)

/-- Settles O16: as EDGE.RHB. -/
theorem edgeRlbRearmsWindow : Obligations.EdgeRlbRearmsWindow :=
  fun _ _ h => congrArg Host.Outcome.next (armWindow_beginOperation h)

/-! ### The same in Layer 1, and the words at the reference width (R51, R52) -/

/-- A word of the table that is the encoding of a well-formed operation decodes to it (R52). -/
theorem decodeTableWord_encode {i : Instr} {nbits : Nat} (hwf : i.wf Config.refTW = true)
    (hfit : encode Config.refTW i < 2 ^ nbits) : decodeTableWord nbits (encode Config.refTW i) = some i := by
  rw [decodeTableWord, Nat.mod_eq_of_lt hfit, decodeOfEncodeIsIdentity _ _ hwf]
  rfl

/-- The 256 words of an EDGE operation: its FrameState's code above the kind 0 and the count (R48, R51). -/
theorem decodeTableWord_edge (fs : FrameState) {cnt : Nat} (h : cnt < 256) :
    decodeTableWord 16 (frameCode fs * 0x0400 + cnt) = some (operationOf fs (.edge cnt)) := by
  have hwf : (operationOf fs (.edge cnt)).wf Config.refTW = true := by
    rw [Instr.wf, event_operationOf]
    exact decide_eq_true h
  have hword : encode Config.refTW (operationOf fs (.edge cnt)) = frameCode fs * 0x0400 + cnt := by
    rw [encode, frame_operationOf, event_operationOf]
    simp [dispatchWord, eventWord, eventKind, eventArg, Config.refTW]
  rw [← hword]
  exact decodeTableWord_encode hwf ((Laws.EncodingFits.encode_below_reserved _ _ hwf).trans (by decide))

/-- Settles O9: Layer 1's part of the whole next state. -/
theorem edgeAsrStoresTheCountAsRead : Obligations.EdgeAsrStoresTheCountAsRead :=
  ⟨fun _ h => decodeTableWord_edge .asr h, fun cnt s hwf => ⟨_, edgeAsrCapturesStrobe cnt s hwf, rfl⟩⟩

/-- Settles O10: Layer 1 sees the strobe as the commands name it, before the timer cuts it to `TW` bits. -/
theorem windowEdgesClearAndRestart : Obligations.WindowEdgesClearAndRestart :=
  ⟨fun _ h => ⟨decodeTableWord_edge .acq h, decodeTableWord_edge .rhb h, decodeTableWord_edge .rlb h⟩,
    fun _ _ => ⟨⟨_, rfl, rfl⟩, ⟨_, rfl, rfl⟩, ⟨_, rfl, rfl⟩⟩⟩

/-- EDGE.ASF alone writes the buffer, whatever FrameState the operation is run in (R24, R61). -/
theorem exec_out {i : Instr} {s t : State} (hne : ∀ cnt, i ≠ .edgeAsf cnt) (h : exec i s = .next t) :
    t.engine.out = s.engine.out := by
  cases i with
  | edgeAsf cnt => exact absurd rfl (hne cnt)
  | sampRhb lvl => cases h; simp [endOfByte_eq, placeHighBit_eq, takeSample, sampleEntry_eq]
  | sampRlb lvl => cases h; simp [endOfByte_eq, placeLowBit_eq, takeSample, sampleEntry_eq]
  | _ => cases h; rfl

/-- Settles O11: the next state of EDGE.ASF with the publish's reads, and the frame of every other operation. -/
theorem edgeAsfAlonePublishes : Obligations.EdgeAsfAlonePublishes := by
  refine ⟨fun _ h => decodeTableWord_edge .asf h, fun cnt s => ?_, fun _ _ _ hne h => exec_out hne h⟩
  obtain ⟨hhigh, hlow, -⟩ := publish_reads s
  exact ⟨_, exec_edgeAsf cnt s, rfl, hhigh, hlow, rfl⟩

/-- Settles O8: the event is a trace of one, and nothing of the trace is left after it. -/
theorem everyEventIsAccepted : Obligations.EveryEventIsAccepted := by
  intro s e rest hwf h
  obtain ⟨t, hstep, ⟨hp, hin⟩, -⟩ := step_event hwf h
  exact ⟨t, hstep, hin, hp⟩

/-! ### The step that dispatches the one interrupt latched (R94, R107) -/

/-- The zero-strobe check lets a state through whose commands do not start a period of 0 (R103 (b)). -/
theorem refuseZeroStrobe_of_not_mem {t : State} (h : Command.startPeriodic 0 ∉ t.cmds) :
    refuseZeroStrobe (.next t) = .next t := if_neg h

theorem interruptPending_eq_false {s : State} :
    interruptPending s = false ↔ s.env.edgePend = false ∧ s.env.cmPend = false := Bool.or_eq_false_iff

theorem step_of_lineEdge {s : State} (hedge : s.env.edgePend = true) (hcm : s.env.cmPend = false) :
    step s = dispatchEdge s := by
  simp [step, runNext, interruptPending, dispatchPending, hedge, hcm]

theorem step_of_compareMatch {s : State} (hedge : s.env.edgePend = false) (hcm : s.env.cmPend = true) :
    step s = dispatchSample s := by
  simp [step, runNext, interruptPending, dispatchPending, hedge, hcm]

/-- Every SAMP operation issues the two commands of its entry and no others (R70 to R73). -/
theorem exec_samp_cmds {fs : FrameState} {lvl : Bool} {s t : State}
    (h : exec (operationOf fs (.samp lvl)) s = .next t) : t.cmds = [.stopPeriodic, .clearCount] := by
  cases fs with
  | rhb => cases h; simp [endOfByte_eq, placeHighBit_eq, takeSample, sampleEntry_eq]
  | rlb => cases h; simp [endOfByte_eq, placeLowBit_eq, takeSample, sampleEntry_eq]
  | _ => cases h; rfl

/-- No SAMP operation starts a period, so a dispatched compare match is never refused (R94, R103 (b)). -/
theorem dispatchSample_eq_exec (s : State) :
    dispatchSample s = exec (operationOf s.engine.fs (.samp s.env.linePrev)) (clearCmPend s) := by
  obtain ⟨t, ht, -⟩ := exec_next (operationOf s.engine.fs (.samp s.env.linePrev)) (clearCmPend s)
  rw [dispatchSample, ht, refuseZeroStrobe_of_not_mem (by simp [exec_samp_cmds ht])]

/-! ### The Sample Timer over many ticks (R100, R102; log 21) -/

/-- From count 0 the free-running timer counts its ticks modulo `2^TW` (R102). -/
theorem iterate_timerTick_freeRunning {tw : Nat} {e : EnvState} (hmode : e.tmode = .freeRunning) (hcnt : e.tcnt = 0)
    (d : Nat) : (timerTick tw)^[d] e = { e with tcnt := d % 2 ^ tw } := by
  induction d with
  | zero => rw [Nat.zero_mod, Function.iterate_zero_apply, ← hcnt]
  | succ d ih =>
    rw [Function.iterate_succ_apply', ih, ← Nat.mod_add_mod]
    simp only [timerTick, hmode, nextCount, truncTW]

/-- A tick of the periodic timer: whether it completes the period is decided by the next count (R100). -/
theorem timerTick_of_periodic {tw : Nat} {e : EnvState} (hmode : e.tmode = .periodic) : timerTick tw e =
    if nextCount tw e = e.tper then { e with cmPend := true, tcnt := 0 } else { e with tcnt := nextCount tw e } := by
  simp only [timerTick, hmode]

/-- From count 0 the periodic timer counts the ticks short of its period (R100). -/
theorem iterate_timerTick_lt_period {tw k : Nat} {e : EnvState} (hmode : e.tmode = .periodic) (hcnt : e.tcnt = 0)
    (hper : e.tper < 2 ^ tw) (hk : k < e.tper) : (timerTick tw)^[k] e = { e with tcnt := k } := by
  induction k with
  | zero => rw [Function.iterate_zero_apply, ← hcnt]
  | succ k ih =>
    have hnext : nextCount tw { e with tcnt := k } = k + 1 := truncTW_of_lt (hk.trans hper)
    rw [Function.iterate_succ_apply', ih (by omega), timerTick_of_periodic (by exact hmode), hnext, if_neg hk.ne]

/-- The tick that completes the period latches the compare match and clears the count (R93, R100). -/
theorem iterate_timerTick_period {tw : Nat} {e : EnvState} (hmode : e.tmode = .periodic) (hcnt : e.tcnt = 0)
    (hper : e.tper < 2 ^ tw) (hpos : 1 ≤ e.tper) :
    (timerTick tw)^[e.tper] e = { e with cmPend := true, tcnt := 0 } := by
  obtain ⟨k, hk⟩ := Nat.exists_eq_add_of_le' hpos
  have hnext : nextCount tw { e with tcnt := k } = e.tper := by
    rw [hk] at hper ⊢
    exact truncTW_of_lt hper
  have hlast : (timerTick tw)^[k] e = { e with tcnt := k } := iterate_timerTick_lt_period hmode hcnt hper (by omega)
  calc (timerTick tw)^[e.tper] e = (timerTick tw)^[k + 1] e := by rw [hk]
    _ = timerTick tw { e with tcnt := k } := by rw [Function.iterate_succ_apply', hlast]
    _ = { e with cmPend := true, tcnt := 0 } := by rw [timerTick_of_periodic (by exact hmode), hnext, if_pos rfl]

/-! ### Timer and edge detector apart (R105, R107)

The timer does not use the recorded line and does not change the selected edge. So ticks without the selected edge are
ticks of the timer alone, with the last level recorded. -/

/-- The edge detector's record of the line level (R105). -/
def recordLine (line : Bool) (e : EnvState) : EnvState := { e with linePrev := line }

/-- The timer neither reads nor writes the recorded line level. -/
theorem timerTick_recordLine (tw : Nat) (line : Bool) (e : EnvState) :
    timerTick tw (recordLine line e) = recordLine line (timerTick tw e) := by
  cases hmode : e.tmode with
  | stopped => simp only [timerTick, recordLine, hmode]
  | freeRunning => simp only [timerTick, recordLine, hmode, nextCount]
  | periodic =>
    rw [timerTick_of_periodic hmode, timerTick_of_periodic (e := recordLine line e) hmode, apply_ite (recordLine line)]
    rfl

theorem iterate_timerTick_recordLine (tw n : Nat) (line : Bool) (e : EnvState) :
    (timerTick tw)^[n] (recordLine line e) = recordLine line ((timerTick tw)^[n] e) :=
  Function.Commute.iterate_left (fun e => timerTick_recordLine tw line e) n e

/-- The timer does not change what the edge detector compares a level with. -/
theorem selectedEdge_timerTick (tw : Nat) (e : EnvState) (line : Bool) :
    selectedEdge (timerTick tw e) line = selectedEdge e line := by
  rcases timerTick_cases tw e with ⟨-, h⟩ | ⟨-, h⟩ | ⟨-, -, h⟩ | ⟨-, -, h⟩ <;> rw [h] <;> rfl

/-- A tick without the selected edge is the timer's, with the line recorded. -/
theorem collaboratorTick_of_no_edge {tw : Nat} {line : Bool} {e : EnvState} (h : selectedEdge e line = false) :
    collaboratorTick tw line e = recordLine line (timerTick tw e) := by
  simp [recordLine, collaboratorTick, edgeDetect, selectedEdge_timerTick, h]

/-- The collaborators after one tick per level of the line (R107). -/
def collaboratorTicks (tw : Nat) : List Bool → EnvState → EnvState
  | [], e => e
  | line :: lines, e => collaboratorTicks tw lines (collaboratorTick tw line e)

theorem collaboratorTicks_concat (tw : Nat) (lines : List Bool) (line : Bool) (e : EnvState) :
    collaboratorTicks tw (lines ++ [line]) e = collaboratorTick tw line (collaboratorTicks tw lines e) := by
  induction lines generalizing e with
  | nil => rfl
  | cons l lines ih => exact ih (collaboratorTick tw l e)

/-- No two levels in a row, from the recorded one on, make the transition that `e` selects. -/
def noSelectedEdge (e : EnvState) (lines : List Bool) : Prop :=
  (e.linePrev :: lines).IsChain fun a b => selectedEdge (recordLine a e) b = false

theorem noSelectedEdge_take {e : EnvState} {lines : List Bool} (h : noSelectedEdge e lines) (k : Nat) :
    noSelectedEdge e (lines.take k) := List.IsChain.take h (k + 1)

theorem noSelectedEdge_cons {e : EnvState} {line : Bool} {lines : List Bool} (h : noSelectedEdge e (line :: lines))
    (tw : Nat) : selectedEdge e line = false ∧ noSelectedEdge (recordLine line (timerTick tw e)) lines := by
  obtain ⟨hfirst, hrest⟩ := List.isChain_cons_cons.mp h
  refine ⟨hfirst, hrest.imp fun a b hab => ?_⟩
  calc selectedEdge (recordLine a (timerTick tw e)) b
      = selectedEdge (timerTick tw (recordLine a e)) b := by rw [timerTick_recordLine]
    _ = selectedEdge (recordLine a e) b := selectedEdge_timerTick _ _ _
    _ = false := hab

/-- Ticks without the selected edge are the timer's, with the last level recorded. -/
theorem collaboratorTicks_of_noSelectedEdge {tw : Nat} {lines : List Bool} {e : EnvState} (h : noSelectedEdge e lines) :
    collaboratorTicks tw lines e = recordLine (lines.getLastD e.linePrev) ((timerTick tw)^[lines.length] e) := by
  induction lines generalizing e with
  | nil => rfl
  | cons line lines ih =>
    obtain ⟨hfirst, hrest⟩ := noSelectedEdge_cons h tw
    rw [collaboratorTicks, collaboratorTick_of_no_edge hfirst, ih hrest, iterate_timerTick_recordLine, List.getLastD_cons]
    rfl

/-! ### A run of ticks (R107) -/

/-- What the step of a tick asks of the collaborators: no latch, which would be dispatched first, and no periodic timer
with period 0, which is refused (R103 (b), R107). -/
structure TickReady (e : EnvState) : Prop where
  edge : e.edgePend = false
  compare : e.cmPend = false
  period : zeroPeriod e = false

/-- The machine after one tick per level, all without a dispatch. -/
def afterTicks (s : State) (lines : List Bool) (rest : List Input) : State :=
  { s with inputs := rest, time := s.time + lines.length, env := collaboratorTicks s.tw lines s.env }

theorem step_of_tick {s : State} {line : Bool} {rest : List Input} (hready : TickReady s.env)
    (hin : s.inputs = .tick line :: rest) : step s = .next (afterTicks s [line] rest) := by
  have hp : interruptPending s = false := interruptPending_eq_false.mpr ⟨hready.edge, hready.compare⟩
  calc step s = runTick line { s with inputs := rest } := step_of_input hp hin
    _ = .next (afterTicks s [line] rest) := if_neg (by simp [hready.period])

/-- Ticks run one after the other as long as each finds the collaborators ready. -/
theorem runSteps_ticks {s : State} {lines : List Bool} {rest : List Input} (hin : s.inputs = lines.map .tick ++ rest)
    (hready : ∀ k, k < lines.length → TickReady (collaboratorTicks s.tw (lines.take k) s.env)) :
    runSteps lines.length s = .next (afterTicks s lines rest) := by
  induction lines generalizing s with
  | nil => rw [List.map_nil, List.nil_append] at hin; rw [← hin]; rfl
  | cons line lines ih =>
    have hstep : step s = .next (afterTicks s [line] (lines.map .tick ++ rest)) :=
      step_of_tick (hready 0 (Nat.succ_pos _)) hin
    have hrun := ih (s := afterTicks s [line] (lines.map .tick ++ rest)) rfl
      fun k hk => hready (k + 1) (Nat.succ_lt_succ hk)
    rw [List.length_cons, runSteps_succ hstep, hrun]
    simp only [afterTicks, collaboratorTicks, List.length_cons, List.length_nil, Nat.zero_add, Nat.add_assoc,
      Nat.add_comm 1]

/-! ### The sample window (R67, R100, R107; log 20, log 21) -/

/-- A sample window as just armed, and the levels of its ticks: as many as the period, and no falling edge among them. -/
structure ArmedWindow (tw : Nat) (e : EnvState) (lines : List Bool) : Prop where
  edge : e.edgePend = false
  compare : e.cmPend = false
  mode : e.tmode = .periodic
  period : e.tper = lines.length
  count : e.tcnt = 0
  positive : 1 ≤ lines.length
  fits : lines.length < 2 ^ tw
  quiet : noSelectedEdge e lines

section
variable {tw : Nat} {e : EnvState} {lines : List Bool} (w : ArmedWindow tw e lines)
include w

/-- Short of the period the ticks are counted, and nothing is latched. -/
theorem ArmedWindow.ticks_lt {k : Nat} (hk : k < lines.length) : collaboratorTicks tw (lines.take k) e =
    { e with tcnt := k, linePrev := (lines.take k).getLastD e.linePrev } := by
  have htimer : (timerTick tw)^[k] e = { e with tcnt := k } :=
    iterate_timerTick_lt_period w.mode w.count (w.period ▸ w.fits) (w.period ▸ hk)
  rw [collaboratorTicks_of_noSelectedEdge (noSelectedEdge_take w.quiet k), List.length_take_of_le hk.le, htimer]
  rfl

/-- The last tick latches the compare match, and records its level. -/
theorem ArmedWindow.ticks_eq : collaboratorTicks tw lines e =
    { e with cmPend := true, tcnt := 0, linePrev := lines.getLastD e.linePrev } := by
  have htimer : (timerTick tw)^[lines.length] e = { e with cmPend := true, tcnt := 0 } := by
    rw [← w.period]
    exact iterate_timerTick_period w.mode w.count (w.period ▸ w.fits) (w.period ▸ w.positive)
  rw [collaboratorTicks_of_noSelectedEdge w.quiet, htimer]
  rfl

/-- Every tick of the window finds the collaborators ready. -/
theorem ArmedWindow.tickReady {k : Nat} (hk : k < lines.length) :
    TickReady (collaboratorTicks tw (lines.take k) e) := by
  have hper : e.tper ≠ 0 := by rw [w.period]; have := w.positive; omega
  rw [w.ticks_lt hk]
  exact ⟨w.edge, w.compare, by simp [zeroPeriod, hper]⟩

end

/-- Any part of the window's ticks can be run. -/
theorem ArmedWindow.runSteps_take {s : State} {lines : List Bool} {rest : List Input}
    (w : ArmedWindow s.tw s.env lines) (hin : s.inputs = lines.map .tick ++ rest) {k : Nat} (hk : k ≤ lines.length) :
    runSteps k s = .next (afterTicks s (lines.take k) ((lines.drop k).map .tick ++ rest)) := by
  have hsplit : s.inputs = (lines.take k).map .tick ++ ((lines.drop k).map .tick ++ rest) := by
    rw [← List.append_assoc, ← List.map_append, List.take_append_drop, hin]
  have hlen : (lines.take k).length = k := List.length_take_of_le hk
  rw [← runSteps_ticks hsplit, hlen]
  intro j hj
  rw [hlen] at hj
  rw [List.take_take, min_eq_left hj.le]
  exact w.tickReady (hj.trans_le hk)

/-- Settles O52: the window's ticks run to the latch, and the latch is the only one, so it is dispatched next. -/
theorem sampleComesOnePeriodLater : Obligations.SampleComesOnePeriodLater := by
  intro s lines rest hp hmode hper hcnt hpos hfits hsel hchain hin
  obtain ⟨hedge, hcm⟩ := interruptPending_eq_false.mp hp
  have hquiet : noSelectedEdge s.env lines :=
    hchain.imp fun a b hab => by simpa only [selectedEdge, recordLine, hsel] using hab
  have w : ArmedWindow s.tw s.env lines := ⟨hedge, hcm, hmode, hper, hcnt, hpos, hfits, hquiet⟩
  constructor
  · intro k hk
    have hready := w.tickReady hk
    exact ⟨_, w.runSteps_take hin hk.le, interruptPending_eq_false.mpr ⟨hready.edge, hready.compare⟩⟩
  · have henv : (afterTicks s lines rest).env = _ := w.ticks_eq
    have hlevel : (afterTicks s lines rest).env.linePrev = lines.getLastD false := by
      rw [henv]
      cases lines with
      | nil => cases hpos
      | cons line lines => rfl
    refine ⟨afterTicks s lines rest, runSteps_ticks hin fun k hk => w.tickReady hk, rfl, rfl, rfl, ?_, ?_, ?_⟩
    · rw [henv]
    · rw [henv]; exact hedge
    · rw [step_of_compareMatch (by rw [henv]; exact hedge) (by rw [henv]), dispatchSample_eq_exec, hlevel]
      rfl

/-! ### The strobe measurement (R62, R102, R129; log 20 to log 22) -/

/-- The start bit's low phase as the collaborators see it at its first tick, with the timer just started. -/
structure Measuring (e : EnvState) : Prop where
  edge : e.edgePend = false
  compare : e.cmPend = false
  mode : e.tmode = .freeRunning
  count : e.tcnt = 0
  edgesel : e.edgesel = .rising
  enabled : e.lirqEn = true
  line : e.linePrev = false

/-- The levels of a start bit that stays low for `d` ticks and then rises. -/
def lowPhase (d : Nat) : List Bool := List.replicate d false ++ [true]

theorem length_lowPhase (d : Nat) : (lowPhase d).length = d + 1 := by simp [lowPhase]

theorem take_lowPhase {d k : Nat} (hk : k ≤ d) : (lowPhase d).take k = List.replicate k false := by
  simp [lowPhase, List.take_append_of_le_length, hk]

section
variable {e : EnvState} (m : Measuring e) (tw d : Nat)
include m

/-- While the line stays low the ticks are counted, and nothing else happens. -/
theorem Measuring.ticks_low : collaboratorTicks tw (List.replicate d false) e = { e with tcnt := d % 2 ^ tw } := by
  have hquiet : noSelectedEdge e (List.replicate d false) := by
    rw [noSelectedEdge, m.line, ← List.replicate_succ]
    exact List.isChain_replicate_of_rel _ (by simp [selectedEdge, recordLine, m.edgesel])
  have hline : (List.replicate d false).getLastD e.linePrev = e.linePrev := by
    cases d <;> simp [m.line, List.getLast?_replicate]
  rw [collaboratorTicks_of_noSelectedEdge hquiet, hline, List.length_replicate,
    iterate_timerTick_freeRunning m.mode m.count]
  rfl

/-- The tick of the rising edge is counted too, and latches the line edge (R102, R105). -/
theorem Measuring.ticks_rise : collaboratorTicks tw (lowPhase d) e =
    { e with tcnt := (d + 1) % 2 ^ tw, edgePend := true, linePrev := true } := by
  rw [lowPhase, collaboratorTicks_concat, m.ticks_low]
  simp [collaboratorTick, edgeDetect, timerTick, m.mode, nextCount, truncTW, selectedEdge, m.edgesel, m.enabled, m.line]

/-- Every tick up to the rising edge finds the collaborators ready: a free-running timer has no period. -/
theorem Measuring.tickReady {k : Nat} (hk : k < (lowPhase d).length) :
    TickReady (collaboratorTicks tw ((lowPhase d).take k) e) := by
  rw [length_lowPhase, Nat.lt_succ_iff] at hk
  rw [take_lowPhase hk, m.ticks_low]
  exact ⟨m.edge, m.compare, by simp [zeroPeriod, m.mode]⟩

end

/-- A line edge latched in AwaitingStartRising is dispatched as EDGE.ASR with the timer's count, and not refused: its
commands start no period (R62, R94, R103 (b)). -/
theorem step_edgeAsr {s : State} (hfs : s.engine.fs = .asr) (hedge : s.env.edgePend = true)
    (hcm : s.env.cmPend = false) : step s = exec (.edgeAsr s.env.tcnt) (clearEdgePend s) := by
  rw [step_of_lineEdge hedge hcm, dispatchEdge, hfs, operationOf, exec_edgeAsr, refuseZeroStrobe_of_not_mem (by simp)]

/-- Settles O53: the rising edge comes at tick `d + 1`, and EDGE.ASR stores the count that the timer then has. -/
theorem strobeMeasuresLowPhase : Obligations.StrobeMeasuresLowPhase := by
  intro s d rest hp hfs hmode hcnt hsel hen hline hin
  obtain ⟨hedge, hcm⟩ := interruptPending_eq_false.mp hp
  have m : Measuring s.env := ⟨hedge, hcm, hmode, hcnt, hsel, hen, hline⟩
  have hlines : s.inputs = (lowPhase d).map .tick ++ rest := by simpa [lowPhase] using hin
  have hticks := runSteps_ticks hlines fun _ hk => m.tickReady s.tw d hk
  rw [length_lowPhase] at hticks
  have henv : (afterTicks s (lowPhase d) rest).env = _ := m.ticks_rise s.tw d
  have hstep := step_edgeAsr (s := afterTicks s (lowPhase d) rest) hfs (by rw [henv]) (by rw [henv]; exact hcm)
  have hcount : (afterTicks s (lowPhase d) rest).env.tcnt = (d + 1) % 2 ^ s.tw := by rw [henv]
  rw [hcount, exec_edgeAsr] at hstep
  exact ⟨_, (runSteps_add hticks).trans (runSteps_succ (k := 0) hstep), rfl, Nat.mod_mod _ _, rfl, rfl, rfl⟩

end Sys2Proof.Machine

/-! ## Sample timer (41_sample_timer.md): the five SAMP operations, by the cursor they are entered with -/

namespace Sys2Proof.Machine

/-! ### The entry housekeeping (R70, R73) -/

/-- The entry of a SAMP operation, with the outputs of the operation before it gone: the whole state it leaves (R70). -/
theorem sampleEntry_beginOperation (s : State) : sampleEntry (beginOperation s) = { s with
    env := { s.env with tmode := .stopped, tcnt := 0 }
    cmds := [.stopPeriodic, .clearCount]
    rdData := none } := sampleEntry_eq _

/-- Settles O19: outside a byte the operation is its entry. -/
theorem sampOutsideByteOnlyHousekeeps : Obligations.SampOutsideByteOnlyHousekeeps := by
  rintro i lvl s (rfl | rfl | rfl) <;> exact congrArg Host.Outcome.next (sampleEntry_beginOperation s)

/-! ### The operands of one sample (R74, R75) -/

/-- Settles O24, by the law that says once which bits `setbit` leaves. -/
theorem setbitSetsExactlyOneBit : Obligations.SetbitSetsExactlyOneBit := setbit_getLsbD

/-- Settles O25, by the law that says once what the decrement leaves. -/
theorem cursorDecrementSaturates : Obligations.CursorDecrementSaturates := countSample_toNat

theorem countSample_eq_zero_iff (c : Cursor) : countSample c = 0 ↔ c.toNat ≤ 1 := by
  rw [← BitVec.toNat_inj, countSample_toNat]
  exact Nat.sub_eq_zero_iff_le

theorem countSample_ne_zero_iff (c : Cursor) : countSample c ≠ 0 ↔ 2 ≤ c.toNat :=
  (countSample_eq_zero_iff c).not.trans Nat.not_le

/-- The bit that a sample selects, by the cursor on entry: entries 9 to 2 select bits 7 to 0 (R71, R72). -/
theorem bitIndex_countSample (c : Cursor) : bitIndex (countSample c) = c.toNat - 2 := by
  rw [bitIndex, countSample_toNat, Nat.sub_sub]

theorem budgetUsed_countSample (c : Cursor) : budgetUsed (countSample c) = decide (c.toNat ≤ 1) :=
  decide_eq_decide.mpr (countSample_eq_zero_iff c)

theorem setsHighBit_countSample (lvl : Bool) (c : Cursor) :
    setsHighBit lvl (countSample c) = (lvl && decide (2 ≤ c.toNat)) := by
  rw [setsHighBit, decide_eq_decide.mpr (countSample_ne_zero_iff c)]

theorem setsLowBit_countSample (lvl : Bool) (c : Cursor) :
    setsLowBit lvl (countSample c) = (lvl && decide (2 ≤ c.toNat) && decide (c.toNat ≤ 9)) := by
  have hguard : (countSample c).toNat < 9 ↔ c.toNat ≤ 9 := by
    rw [countSample_toNat]
    omega
  rw [setsLowBit, decide_eq_decide.mpr (countSample_ne_zero_iff c), decide_eq_decide.mpr hguard]

/-! ### The accumulator after a sample

The placeholder's guard (R72) and the missing effect past bit 7 (D10) leave the same entries without effect, so one function
serves both bytes. -/

/-- An accumulator after a sample of `lvl` entered with the cursor `cur`: entries 9 to 2 place the level, the others place
nothing (R71, R72). -/
def byteAfterSample (lvl : Bool) (acc : Byte) (cur : Cursor) : Byte :=
  bif lvl && decide (2 ≤ cur.toNat) && decide (cur.toNat ≤ 9) then setbit acc (cur.toNat - 2) else acc

theorem sampledByte_low_countSample (lvl : Bool) (acc : Byte) (c : Cursor) :
    sampledByte (setsLowBit lvl (countSample c)) acc (countSample c) = byteAfterSample lvl acc c := by
  rw [sampledByte, setsLowBit_countSample, bitIndex_countSample, byteAfterSample]

/-- An entry of 10 or above selects a bit past bit 7, where `setbit` has no effect (D10). -/
theorem sampledByte_high_countSample (lvl : Bool) (acc : Byte) (c : Cursor) :
    sampledByte (setsHighBit lvl (countSample c)) acc (countSample c) = byteAfterSample lvl acc c := by
  rw [sampledByte, setsHighBit_countSample, bitIndex_countSample, byteAfterSample]
  by_cases h : c.toNat ≤ 9
  · simp [h]
  · have hpast : ¬c.toNat - 2 ≤ 7 := by omega
    simp [h, setbit, hpast]

/-- The parity, the placeholder and the unreachable entries place nothing (R71, R72, R77). -/
theorem byteAfterSample_of_no_bit (lvl : Bool) (acc : Byte) {c : Cursor} (h : c.toNat ≤ 1 ∨ 10 ≤ c.toNat) :
    byteAfterSample lvl acc c = acc := by
  have hno : (decide (2 ≤ c.toNat) && decide (c.toNat ≤ 9)) = false := by
    rw [← Bool.decide_and]
    exact decide_eq_false (by omega)
  rw [byteAfterSample, Bool.and_assoc, hno, Bool.and_false, cond_false]

/-- A data sample ORs the level into its bit and leaves the others; a low level clears nothing (R74). -/
theorem byteAfterSample_getLsbD (lvl : Bool) (acc : Byte) {c : Cursor} (h2 : 2 ≤ c.toNat) (h9 : c.toNat ≤ 9) (j : Nat) :
    (byteAfterSample lvl acc c).getLsbD j = (acc.getLsbD j || (lvl && decide (j = c.toNat - 2))) := by
  have hbit : c.toNat - 2 ≤ 7 := by omega
  cases lvl with
  | false => simp [byteAfterSample]
  | true => simp [byteAfterSample, setbit_getLsbD, h2, h9, hbit]

/-! ### SAMP inside a byte: the whole next state (R71, R72) -/

/-- SAMP.RHB: the whole next state. -/
theorem exec_sampRhb (lvl : Bool) (s : State) : exec (.sampRhb lvl) s = .next { s with
    engine := { s.engine with
      fs := bif budgetUsed (countSample s.engine.cur) then .rlb else s.engine.fs
      cur := bif budgetUsed (countSample s.engine.cur) then lowBudget else countSample s.engine.cur
      hi := byteAfterSample lvl s.engine.hi s.engine.cur }
    env := { s.env with tmode := .stopped, tcnt := 0 }
    cmds := [.stopPeriodic, .clearCount]
    rdData := none } := by
  rw [← sampledByte_high_countSample]
  calc exec (.sampRhb lvl) s
      = .next (endOfByte .rlb lowBudget (placeHighBit lvl (takeSample (sampleEntry (beginOperation s))))) := rfl
    _ = _ := by rw [endOfByte_eq, placeHighBit_eq]; rfl

/-- SAMP.RLB: the whole next state. -/
theorem exec_sampRlb (lvl : Bool) (s : State) : exec (.sampRlb lvl) s = .next { s with
    engine := { s.engine with
      fs := bif budgetUsed (countSample s.engine.cur) then .asf else s.engine.fs
      cur := bif budgetUsed (countSample s.engine.cur) then highBudget else countSample s.engine.cur
      lo := byteAfterSample lvl s.engine.lo s.engine.cur }
    env := { s.env with tmode := .stopped, tcnt := 0 }
    cmds := [.stopPeriodic, .clearCount]
    rdData := none } := by
  rw [← sampledByte_low_countSample]
  calc exec (.sampRlb lvl) s
      = .next (endOfByte .asf highBudget (placeLowBit lvl (takeSample (sampleEntry (beginOperation s))))) := rfl
    _ = _ := by rw [endOfByte_eq, placeLowBit_eq]; rfl

/-- FrameState, cursor and accumulator after a sample, by the cursor `c` on entry, for either byte: `next` and `budget` are
those of the byte's end (R71, R72). -/
theorem sample_by_entry (lvl : Bool) (fs next : FrameState) (budget c : Cursor) (acc : Byte) :
    (c.toNat ≤ 1 → (bif budgetUsed (countSample c) then next else fs) = next ∧
      (bif budgetUsed (countSample c) then budget else countSample c) = budget ∧ byteAfterSample lvl acc c = acc) ∧
    (2 ≤ c.toNat → (bif budgetUsed (countSample c) then next else fs) = fs ∧
      (bif budgetUsed (countSample c) then budget else countSample c).toNat = c.toNat - 1) ∧
    (2 ≤ c.toNat → c.toNat ≤ 9 → ∀ j,
      (byteAfterSample lvl acc c).getLsbD j = (acc.getLsbD j || (lvl && decide (j = c.toNat - 2)))) ∧
    (10 ≤ c.toNat → byteAfterSample lvl acc c = acc) := by
  refine ⟨fun hend => ?_, fun hopen => ?_, byteAfterSample_getLsbD lvl acc, fun hpast => ?_⟩
  · rw [budgetUsed_countSample, decide_eq_true hend]
    exact ⟨rfl, rfl, byteAfterSample_of_no_bit lvl acc (.inl hend)⟩
  · rw [budgetUsed_countSample, decide_eq_false (by omega)]
    exact ⟨rfl, countSample_toNat c⟩
  · exact byteAfterSample_of_no_bit lvl acc (.inr hpast)

/-- Settles O17: the whole next state, read by the cursor on entry. -/
theorem sampRhbTakesOneSample : Obligations.SampRhbTakesOneSample :=
  fun lvl s => ⟨_, _, _, exec_sampRhb lvl s, sample_by_entry lvl _ .rlb lowBudget s.engine.cur s.engine.hi⟩

/-- Settles O18: as SAMP.RHB, with the end of the frame and the low accumulator. -/
theorem sampRlbTakesOneSample : Obligations.SampRlbTakesOneSample :=
  fun lvl s => ⟨_, _, _, exec_sampRlb lvl s, sample_by_entry lvl _ .asf highBudget s.engine.cur s.engine.lo⟩

/-! ### The samples that influence nothing (R77, R131) -/

/-- Settles O23: the level enters the next state through the accumulator alone, and these entries place nothing there. -/
theorem parityAndPlaceholderAreDiscarded : Obligations.ParityAndPlaceholderAreDiscarded := by
  intro s
  have hparity (h : s.engine.cur = 1) : s.engine.cur.toNat ≤ 1 ∨ 10 ≤ s.engine.cur.toNat := .inl (by simp [h])
  have hplaceholder (h : s.engine.cur = 10) : s.engine.cur.toNat ≤ 1 ∨ 10 ≤ s.engine.cur.toNat := .inr (by simp [h])
  refine ⟨fun h => ?_, fun h => ?_, fun h => ?_⟩
  · simp only [exec_sampRhb, byteAfterSample_of_no_bit _ _ (hparity h)]
  · simp only [exec_sampRlb, byteAfterSample_of_no_bit _ _ (hparity h)]
  · simp only [exec_sampRlb, byteAfterSample_of_no_bit _ _ (hplaceholder h)]

end Sys2Proof.Machine

/-! ## Consumer read (42_consumer_read.md): the two READ operations, as one read of a cell -/

namespace Sys2Proof.Machine

/-- A read of either cell: the byte is returned and observed, no command is issued, and engine and environment stay as they
were (R37, R80, R81, R135). -/
theorem returnByte_beginOperation (c : BufferCell) (s : State) : returnByte (memRead c s) (beginOperation s) = { s with
    cmds := []
    rdData := some (readCell s.engine.out c.index)
    results := s.results ++ [readCell s.engine.out c.index] } := rfl

/-- Settles O20: the read of the cell with index 0, in whatever FrameState the word names (R54). -/
theorem rdhiReturnsHighByte : Obligations.RdhiReturnsHighByte := by
  intro fs s
  calc exec (.rdhi fs) s
      = .next (returnByte (memRead .high s) (beginOperation s)) := rfl
    _ = _ := congrArg Host.Outcome.next (returnByte_beginOperation .high s)

/-- Settles O21: the read of the cell with index 1, in whatever FrameState the word names (R54). -/
theorem rdloReturnsLowByte : Obligations.RdloReturnsLowByte := by
  intro fs s
  calc exec (.rdlo fs) s
      = .next (returnByte (memRead .low s) (beginOperation s)) := rfl
    _ = _ := congrArg Host.Outcome.next (returnByte_beginOperation .low s)

end Sys2Proof.Machine

/-! ## Exceptions (60_exceptions.md): the two collaborators, the tick, and the dispatch of the two interrupts -/

namespace Sys2Proof.Machine

/-! ### The Sample Timer from its commands on (R100, R101; log 21) -/

/-- Settles O27: each command is one record update; a period that fits its field is stored uncut. -/
theorem commandsActOnCollaborators : Obligations.CommandsActOnCollaborators := by
  intro tw p e
  have hperiod (hp : p < 2 ^ tw) : applyCommand tw (.startPeriodic p) e = { e with tper := p, tmode := .periodic } := by
    rw [applyCommand, truncTW_of_lt hp]
  exact ⟨rfl, rfl, rfl, rfl, rfl, rfl, hperiod, rfl, rfl⟩

/-- The two commands that arm a sample window: count 0, and the periodic mode with a period that fits `TW` bits (R63,
R101). -/
theorem applyCommands_armWindow {tw p : Nat} (hp : p < 2 ^ tw) (e : EnvState) :
    applyCommands tw [.clearCount, .startPeriodic p] e = { e with tper := p, tmode := .periodic, tcnt := 0 } := by
  simp only [applyCommands, applyCommand, truncTW_of_lt hp]

/-- Settles O29: the armed timer stands at count 0, and its ticks are known up to and at the period. -/
theorem firstCompareMatchAfterPeriod : Obligations.FirstCompareMatchAfterPeriod := by
  intro tw p e hpos hp
  rw [applyCommands_armWindow hp]
  exact ⟨fun k hk => iterate_timerTick_lt_period rfl rfl hp hk,
    iterate_timerTick_period (e := { e with tper := p, tmode := .periodic, tcnt := 0 }) rfl rfl hp hpos⟩

/-- Settles O30: `startFreeRunning` changes the mode alone, so the timer counts from 0. -/
theorem freeRunningCountWraps : Obligations.FreeRunningCountWraps :=
  fun tw d e hcnt => iterate_timerTick_freeRunning (e := applyCommand tw .startFreeRunning e) rfl hcnt d

/-! ### The edge detector (R92, R105; log 22) -/

/-- The selected transition, both selections in one formula (R105). -/
theorem selectedEdge_eq (e : EnvState) (line : Bool) : selectedEdge e line =
    ((decide (e.edgesel = .falling) && e.linePrev && !line) ||
      (decide (e.edgesel = .rising) && !e.linePrev && line)) := by
  cases hsel : e.edgesel with
  | falling => simp [selectedEdge, hsel]
  | rising => simp [selectedEdge, hsel]

/-- Settles O31: the detector latches by the selected transition, written out. -/
theorem edgeDetectorLatchesSelectedEdge : Obligations.EdgeDetectorLatchesSelectedEdge := by
  intro line e
  rw [edgeDetect, selectedEdge_eq]

/-! ### The step with no interrupt latched: a tick, or idling (R107, R111) -/

theorem zeroPeriod_eq_true_iff {e : EnvState} : zeroPeriod e = true ↔ e.tmode = .periodic ∧ e.tper = 0 := by
  simp [zeroPeriod]

/-- Settles O32: the collaborators are ready for the tick, and the tick is theirs alone. -/
theorem tickAdvancesTimerThenEdges : Obligations.TickAdvancesTimerThenEdges := by
  intro s line rest hp hin hperiod
  obtain ⟨hedge, hcm⟩ := interruptPending_eq_false.mp hp
  have hready : TickReady s.env := ⟨hedge, hcm, Bool.eq_false_iff.mpr (mt zeroPeriod_eq_true_iff.mp hperiod)⟩
  exact step_of_tick hready hin

/-- Settles O39: no latch to dispatch and no input to consume. -/
theorem idleStepKeepsEverything : Obligations.IdleStepKeepsEverything := by
  intro s hp hin
  simp [step, runNext, hp, hin]

/-! ### What a dispatched line edge does: its handler, or the refusal of a zero strobe (R94, R103 (b), R130; log 10) -/

/-- The EDGE operation of this FrameState arms a sample window, and with a strobe of 0. -/
abbrev armsZeroStrobe (e : EngineState) : Prop := e.strobe = 0 ∧ (e.fs = .acq ∨ e.fs = .rhb ∨ e.fs = .rlb)

/-- An EDGE operation issues `startPeriodic(0)` exactly where it arms a window with a zero strobe (R61 to R65). -/
theorem startPeriodic_zero_mem_iff {s t : State} {n : Nat} (h : exec (operationOf s.engine.fs (.edge n)) s = .next t) :
    Command.startPeriodic 0 ∈ t.cmds ↔ armsZeroStrobe s.engine := by
  cases hfs : s.engine.fs with
  | asf => rw [hfs, operationOf, exec_edgeAsf] at h; cases h; simp [hfs]
  | asr => rw [hfs, operationOf, exec_edgeAsr] at h; cases h; simp [hfs]
  | _ =>
    rw [hfs] at h
    cases h
    simp [armWindow_eq, hfs, eq_comm (a := 0)]

/-- The dispatch of a line edge: refused where it would arm a window with a zero strobe, else its handler's result. -/
theorem dispatchEdge_eq_ite (s : State) : dispatchEdge s = if armsZeroStrobe s.engine then .refused .zeroStrobe
    else exec (operationOf s.engine.fs (.edge s.env.tcnt)) (clearEdgePend s) := by
  obtain ⟨t, ht, -⟩ := exec_next (operationOf s.engine.fs (.edge s.env.tcnt)) (clearEdgePend s)
  have hmem : Command.startPeriodic 0 ∈ t.cmds ↔ armsZeroStrobe s.engine :=
    startPeriodic_zero_mem_iff (s := clearEdgePend s) ht
  rw [dispatchEdge, ht, refuseZeroStrobe]
  simp only [hmem]

/-- Settles O33: the one latch set is dispatched, and the hypothesis on the line edge keeps it from being refused. -/
theorem latchedInterruptIsDispatched : Obligations.LatchedInterruptIsDispatched := by
  intro s
  constructor
  · intro hmeaning hedge hcm
    have hnot : ¬armsZeroStrobe s.engine := by
      rintro ⟨hzero, hfs⟩
      rcases hmeaning with hpos | h | h
      · omega
      · simp [h] at hfs
      · simp [h] at hfs
    rw [step_of_lineEdge hedge hcm, dispatchEdge_eq_ite, if_neg hnot]
    rfl
  · intro hedge hcm
    rw [step_of_compareMatch hedge hcm, dispatchSample_eq_exec]
    rfl

/-- Settles O36: the dispatched edge by the zero-strobe check, the tick by the timer's zero period. -/
theorem zeroStrobeIsRefused : Obligations.ZeroStrobeIsRefused := by
  intro s
  constructor
  · intro hedge hcm hzero hfs
    rw [step_of_lineEdge hedge hcm, dispatchEdge_eq_ite, if_pos ⟨hzero, hfs⟩]
  · intro line rest hp hin hmode hper
    calc step s = runTick line { s with inputs := rest } := step_of_input hp hin
      _ = .refused .zeroStrobe := if_pos (zeroPeriod_eq_true_iff.mpr ⟨hmode, hper⟩)

/-! ### Both interrupts latched, and what every dispatch takes off (R94, R95, R107; log 6) -/

/-- A latched interrupt goes before any input (R107). -/
theorem step_of_pending {s : State} (hp : interruptPending s = true) : step s = dispatchPending s := by
  simp [step, runNext, hp]

/-- With both latched, the free choice is drawn and says which goes first (R95). -/
theorem step_of_both {s : State} (hedge : s.env.edgePend = true) (hcm : s.env.cmPend = true) : step s =
    if Config.edgeFirst s.draws then dispatchEdge (drawOrder s) else dispatchSample (drawOrder s) := by
  rw [step_of_pending (by simp [interruptPending, hedge]), dispatchPending, if_pos (by simp [hedge, hcm])]

/-- Settles O34: the two dispatches are known, and drawing the choice changes nothing that they read. -/
theorem eitherInterruptMayGoFirst : Obligations.EitherInterruptMayGoFirst := by
  intro s hedge hcm
  rw [step_of_both hedge hcm, dispatchEdge_eq_ite, dispatchSample_eq_exec]
  rfl

/-- No operation sets or clears a latch, consumes an input or takes time (R94, R107). -/
theorem exec_latchCount {i : Instr} {s t : State} (h : exec i s = .next t) :
    latchCount t = latchCount s ∧ t.inputs = s.inputs ∧ t.time = s.time := by
  obtain ⟨u, hu, -, hin, htime, -, hedge, hcm, -⟩ := exec_next i s
  obtain rfl : u = t := by rw [hu] at h; exact Host.Outcome.next.inj h
  exact ⟨by rw [latchCount, hedge, hcm, latchCount], hin, htime⟩

theorem latchCount_clearEdgePend {s : State} (h : s.env.edgePend = true) :
    latchCount (clearEdgePend s) + 1 = latchCount s := by
  simp [latchCount, h, Nat.add_comm]

theorem latchCount_clearCmPend {s : State} (h : s.env.cmPend = true) :
    latchCount (clearCmPend s) + 1 = latchCount s := by
  simp [latchCount, h]

/-- Settles O35: a dispatch clears one latch that was set and runs an operation, which touches neither latch. -/
theorem dispatchTakesOneLatchOff : Obligations.DispatchTakesOneLatchOff := by
  intro s t hp hstep
  rw [step_of_pending hp] at hstep
  obtain ⟨d, ⟨hedge, hex⟩ | ⟨hcm, hex⟩⟩ := dispatchPending_next hstep hp
  · obtain ⟨hcount, hin, htime⟩ := exec_latchCount hex
    exact ⟨hcount ▸ latchCount_clearEdgePend hedge, hin, htime⟩
  · obtain ⟨hcount, hin, htime⟩ := exec_latchCount hex
    exact ⟨hcount ▸ latchCount_clearCmPend hcm, hin, htime⟩

end Sys2Proof.Machine

/-! ## Reset and hazards (70_reset_and_hazards.md): what brings FrameState back to ASF, and after how many samples -/

namespace Sys2Proof.Machine

/-! ### The return to ASF (R121) -/

/-- Without a reset a step performs an operation of the present FrameState on the present engine, or leaves the engine as it
is. -/
theorem step_exec_or_engine_eq {s t : State} (h : step s = .next t) (hno : ¬resetNext s) :
    (∃ ev u, u.engine = s.engine ∧ exec (operationOf u.engine.fs ev) u = .next t) ∨ t.engine = s.engine := by
  rcases step_cases h with ⟨hp, hd⟩ | ⟨-, -, rfl⟩ | ⟨-, ew, rest, i, -, hw, hdec, hex⟩ | ⟨-, line, rest, -, -, rfl⟩ |
    ⟨hp, rest, hin, -⟩
  · obtain ⟨d, ⟨-, hex⟩ | ⟨-, hex⟩⟩ := dispatchPending_next hd hp
    · exact .inl ⟨_, { clearEdgePend s with draws := d }, rfl, hex⟩
    · exact .inl ⟨_, { clearCmPend s with draws := d }, rfl, hex⟩
  · exact .inr rfl
  · obtain ⟨hframe, -⟩ := decode_frame hw hdec
    have hop : operationOf s.engine.fs i.event = i := by rw [← hframe, operationOf_frame_event]
    exact .inl ⟨i.event, { s with inputs := rest }, rfl, by rw [hop]; exact hex⟩
  · exact .inr rfl
  · exact absurd ⟨hp, by rw [hin]; rfl⟩ hno

/-- Of all operations only the SAMP that uses up a low byte's cursor enters ASF (R72, R121). -/
theorem OperationEffect.returns_to_asf {tw : Nat} {e e' : EngineState} {v v' : EnvState} {ev : Event}
    (h : OperationEffect tw e v ev e' v') (hfrom : e.fs ≠ .asf) (hto : e'.fs = .asf) :
    (∃ lvl, ev = .samp lvl) ∧ e.fs = .rlb ∧ countSample e.cur = 0 ∧ e'.cur = highBudget := by
  cases h with
  | endLow lvl hfs hcur => exact ⟨⟨lvl, rfl⟩, hfs, hcur, rfl⟩
  | publish cnt hfs => cases hto
  | capture cnt hfs => cases hto
  | firstWindow cnt hfs => cases hto
  | endHigh lvl hfs hcur => cases hto
  | _ => exact absurd hto hfrom

/-- Settles O46: the step performs an operation, which can only be that SAMP, and every SAMP issues the same commands. -/
theorem onlyLastSampleReturnsToAsf : Obligations.OnlyLastSampleReturnsToAsf := by
  intro s t h hno hfrom hto
  rcases step_exec_or_engine_eq h hno with ⟨ev, u, hengine, hex⟩ | hsame
  · obtain ⟨⟨lvl, rfl⟩, hfs, hcur, hcur'⟩ := (exec_effect hex).returns_to_asf (hengine ▸ hfrom) hto
    rw [hengine] at hfs hcur
    exact ⟨hfs, (countSample_eq_zero_iff _).mp hcur, hcur', exec_samp_cmds hex⟩
  · exact absurd (hsame ▸ hto) hfrom

/-! ### Counting the samples of a byte in progress (R134) -/

/-- How many samples end the frame of an engine inside a byte: those of its cursor, and after a high byte the ten of the low
byte (R134). -/
def samplesToEnd (e : EngineState) : Nat := if e.fs = .rhb then e.cur.toNat + 10 else e.cur.toNat

theorem samplesToEnd_of_rhb {e : EngineState} (h : e.fs = .rhb) : samplesToEnd e = e.cur.toNat + 10 := if_pos h

theorem samplesToEnd_of_rlb {e : EngineState} (h : e.fs = .rlb) : samplesToEnd e = e.cur.toNat := if_neg (by simp [h])

theorem cur_le_samplesToEnd (e : EngineState) : e.cur.toNat ≤ samplesToEnd e := by
  unfold samplesToEnd
  split_ifs <;> omega

/-- The engine `e` after `k` samples from an engine `e₀` inside a byte, up to the end of the frame. -/
inductive SampledFrom (e₀ : EngineState) (k : Nat) (e : EngineState) : Prop where
  /-- Still in the byte of `e₀`: each sample has counted once (R75). -/
  | sameByte (hfs : e.fs = e₀.fs) (hcur : e.cur.toNat + k = e₀.cur.toNat) (hpos : 1 ≤ e.cur.toNat)
  /-- In the low byte after the high byte of `e₀` (R71). -/
  | lowByte (hhigh : e₀.fs = .rhb) (hfs : e.fs = .rlb) (hcur : e.cur.toNat + k = e₀.cur.toNat + 10)
      (hpos : 1 ≤ e.cur.toNat)
  /-- The frame has ended with just these samples (R72). -/
  | ended (hk : k = samplesToEnd e₀) (hfs : e.fs = .asf) (hcur : e.cur = highBudget)

section
variable {e₀ e : EngineState} {k : Nat} (a : SampledFrom e₀ k e)
include a

/-- Before the last sample a byte is still being read. -/
theorem SampledFrom.insideByte_of_lt (hbyte : insideByte e₀.fs = true) (hopen : k < samplesToEnd e₀) :
    insideByte e.fs = true := by
  cases a with
  | sameByte hfs hcur hpos => rw [hfs]; exact hbyte
  | lowByte hhigh hfs hcur hpos => rw [hfs]; rfl
  | ended hk hfs hcur => omega

/-- Before the last sample of a low byte, that byte is still being read, and its cursor is known. -/
theorem SampledFrom.low_of_lt (hlow : e₀.fs = .rlb) (hopen : k < e₀.cur.toNat) :
    e.fs = .rlb ∧ e.cur.toNat = e₀.cur.toNat - k := by
  cases a with
  | sameByte hfs hcur hpos => exact ⟨hfs.trans hlow, by omega⟩
  | lowByte hhigh hfs hcur hpos => cases hlow.symm.trans hhigh
  | ended hk hfs hcur => rw [samplesToEnd_of_rlb hlow] at hk; omega

/-- With the last sample the frame ends. -/
theorem SampledFrom.ended_of_eq (hend : k = samplesToEnd e₀) : e.fs = .asf ∧ e.cur = highBudget := by
  cases a with
  | sameByte hfs hcur hpos => have := cur_le_samplesToEnd e₀; omega
  | lowByte hhigh hfs hcur hpos => rw [samplesToEnd_of_rhb hhigh] at hend; omega
  | ended hk hfs hcur => exact ⟨hfs, hcur⟩

/-- A sample that does not use up the cursor, of either byte, counts once (R75). -/
theorem SampledFrom.after_countedSample {e' : EngineState} (hopen : k < samplesToEnd e₀) (hfs' : e'.fs = e.fs)
    (hcur' : e'.cur = countSample e.cur) (hleft : countSample e.cur ≠ 0) : SampledFrom e₀ (k + 1) e' := by
  have htwo : 2 ≤ e.cur.toNat := (countSample_ne_zero_iff _).mp hleft
  have hcount : e'.cur.toNat = e.cur.toNat - 1 := by rw [hcur', countSample_toNat]
  cases a with
  | sameByte hfs hcur hpos => exact .sameByte (hfs'.trans hfs) (by omega) (by omega)
  | lowByte hhigh hfs hcur hpos => exact .lowByte hhigh (hfs'.trans hfs) (by omega) (by omega)
  | ended hk hfs hcur => omega

/-- The sample that uses up the cursor of the high byte opens the low byte with its budget of ten (R71). -/
theorem SampledFrom.after_endHigh (hhigh : e.fs = .rhb) (hused : countSample e.cur = 0) :
    SampledFrom e₀ (k + 1) { e with fs := .rlb, cur := lowBudget } := by
  have hone : e.cur.toNat ≤ 1 := (countSample_eq_zero_iff _).mp hused
  have hbudget : lowBudget.toNat = 10 := rfl
  cases a with
  | sameByte hfs hcur hpos =>
    exact .lowByte (hfs.symm.trans hhigh) rfl (by rw [hbudget]; omega) (by rw [hbudget]; decide)
  | lowByte _ hfs hcur hpos => cases hfs.symm.trans hhigh
  | ended hk hfs hcur => cases hfs.symm.trans hhigh

/-- The sample that uses up the cursor of the low byte is the one that ends the frame (R72). -/
theorem SampledFrom.after_endLow (hlow : e.fs = .rlb) (hused : countSample e.cur = 0) :
    SampledFrom e₀ (k + 1) { e with fs := .asf, cur := highBudget } := by
  have hone : e.cur.toNat ≤ 1 := (countSample_eq_zero_iff _).mp hused
  refine .ended ?_ rfl rfl
  cases a with
  | sameByte hfs hcur hpos => rw [samplesToEnd_of_rlb (hfs.symm.trans hlow)]; omega
  | lowByte hhigh hfs hcur hpos => rw [samplesToEnd_of_rhb hhigh]; omega
  | ended hk hfs hcur => cases hfs.symm.trans hlow

/-- Before the end of the frame a SAMP counts once, an EDGE or a read not at all (R134). -/
theorem SampledFrom.after_event {tw : Nat} {e' : EngineState} {v v' : EnvState} {ev : Event}
    (hbyte : insideByte e₀.fs = true) (hopen : k < samplesToEnd e₀) (h : OperationEffect tw e v ev e' v') :
    SampledFrom e₀ (k + sampleCount [ev]) e' := by
  have hinside := a.insideByte_of_lt hbyte hopen
  cases h with
  | publish cnt hfs => rw [hfs] at hinside; cases hinside
  | capture cnt hfs => rw [hfs] at hinside; cases hinside
  | firstWindow cnt hfs => rw [hfs] at hinside; cases hinside
  | housekeep lvl hfs => rw [hfs] at hinside; cases hinside
  | sampleHigh lvl hfs hcur => exact a.after_countedSample hopen rfl rfl hcur
  | sampleLow lvl hfs hcur => exact a.after_countedSample hopen rfl rfl hcur
  | endHigh lvl hfs hcur => exact a.after_endHigh hfs hcur
  | endLow lvl hfs hcur => exact a.after_endLow hfs hcur
  | nextWindow cnt hfs => exact a
  | readHigh => exact a
  | readLow => exact a

end

/-- What every event of the trace `done`, begun inside a byte, keeps: the samples so far are counted unless an event came
after the one that ended the frame. -/
def CountedTrace (e₀ : EngineState) (done : List Event) (s : State) : Prop :=
  sampleCount done.dropLast < samplesToEnd e₀ → SampledFrom e₀ (sampleCount done) s.engine

theorem CountedTrace.after_event {e₀ : EngineState} {done : List Event} {ev : Event} {s t : State}
    (a : CountedTrace e₀ done s) (hbyte : insideByte e₀.fs = true) (h : EventStep s ev t) :
    CountedTrace e₀ (done ++ [ev]) t := by
  intro hopen
  rw [List.dropLast_concat] at hopen
  rw [sampleCount_append]
  exact (a ((sampleCount_dropLast_le done).trans_lt hopen)).after_event hbyte hopen h.effect

/-- A trace that ends in a SAMP has one sample fewer without it. -/
theorem sampleCount_of_getLast? {es : List Event} {b : Bool} (h : es.getLast? = some (.samp b)) :
    sampleCount es = sampleCount es.dropLast + 1 := by
  obtain ⟨init, rfl⟩ := List.getLast?_eq_some_iff.mp h
  rw [sampleCount_append, List.dropLast_concat]
  rfl

section
variable {s : State} {es : List Event} {rest : List Input} (hbyte : insideByte s.engine.fs = true)
  (hpos : 1 ≤ s.engine.cur.toNat) (hspelled : spelled s.tw es) (h : facing s es rest)
include hbyte hpos hspelled h

/-- From inside a byte, a trace of which no event comes after the end of the frame runs, and its samples are counted. -/
theorem runSteps_counts (hopen : sampleCount es.dropLast < samplesToEnd s.engine) :
    ∃ t, runSteps es.length s = .next t ∧ SampledFrom s.engine (sampleCount es) t.engine := by
  have hstart : CountedTrace s.engine [] s := fun _ => .sameByte rfl rfl hpos
  obtain ⟨t, hrun, -, -, htrace⟩ := runSteps_trace (later := []) hspelled (by rwa [List.append_nil]) hstart
    fun _ _ _ _ a hevent => a.after_event hbyte hevent
  exact ⟨t, hrun, htrace hopen⟩

/-- Fewer samples than end the frame: all of them are counted. -/
theorem runSteps_counts_of_lt (hlt : sampleCount es < samplesToEnd s.engine) :
    ∃ t, runSteps es.length s = .next t ∧ SampledFrom s.engine (sampleCount es) t.engine :=
  runSteps_counts hbyte hpos hspelled h ((sampleCount_dropLast_le es).trans_lt hlt)

/-- The frame ends with exactly the sample that its count names (R134). -/
theorem runSteps_ends_frame (hcount : sampleCount es = samplesToEnd s.engine)
    (hlast : ∃ b, es.getLast? = some (.samp b)) :
    ∃ t, runSteps es.length s = .next t ∧ t.engine.fs = .asf ∧ t.engine.cur = highBudget := by
  obtain ⟨b, hb⟩ := hlast
  have hone := sampleCount_of_getLast? hb
  obtain ⟨t, hrun, a⟩ := runSteps_counts hbyte hpos hspelled h (by omega)
  exact ⟨t, hrun, a.ended_of_eq hcount⟩

end

/-- Settles O50: for each byte, the count short of the frame's end and the count at it. -/
theorem bytesEndAfterTheirSamples : Obligations.BytesEndAfterTheirSamples := by
  intro s es rest hpos hspelled h
  have hinside {fs : FrameState} (hfs : s.engine.fs = fs) (hin : insideByte fs = true) :
      insideByte s.engine.fs = true := by rw [hfs]; exact hin
  refine ⟨fun hfs hlt => ?_, fun hfs hcount hlast => ?_, fun hfs hlt => ?_, fun hfs hcount hlast => ?_⟩
  · have hopen : sampleCount es < samplesToEnd s.engine := by rwa [samplesToEnd_of_rlb hfs]
    obtain ⟨t, hrun, a⟩ := runSteps_counts_of_lt (hinside hfs rfl) hpos hspelled h hopen
    exact ⟨t, hrun, a.low_of_lt hfs hlt⟩
  · exact runSteps_ends_frame (hinside hfs rfl) hpos hspelled h (by rwa [samplesToEnd_of_rlb hfs]) hlast
  · have hopen : sampleCount es < samplesToEnd s.engine := by rwa [samplesToEnd_of_rhb hfs]
    obtain ⟨t, hrun, a⟩ := runSteps_counts_of_lt (hinside hfs rfl) hpos hspelled h hopen
    exact ⟨t, hrun, a.insideByte_of_lt (hinside hfs rfl) hopen⟩
  · exact runSteps_ends_frame (hinside hfs rfl) hpos hspelled h (by rwa [samplesToEnd_of_rhb hfs]) hlast

end Sys2Proof.Machine
